-- ==== Sys2Proof/Config.lean ====
section
/-! DEFINITION. The implementation parameters of the CCA block (00_scope.md section 4).
`W_MAX` and `GATE_DELAY` are arguments of the model: `Params` holds them, a machine of any `Params` is a value of
`Machine.State`, and no definition or statement about the machine fixes them. `Config.params` holds the spec's default
and stated value, and only the machine after reset (`Machine.State.reset`) reads it. -/

namespace Sys2Proof

/-- The parameters of a block (00_scope.md rules R6, R7). -/
structure Params where
  /-- `W_MAX`, the capacity of every bit vector of the block (00_scope.md rule R6) -/
  wMax : Nat
  /-- `GATE_DELAY`, the delay units charged per cycle (00_scope.md rule R7) -/
  gateDelay : Nat
deriving DecidableEq, Repr

/-- `W_MAX >= 1` and `GATE_DELAY >= 1` (00_scope.md rules R6, R7). -/
def Params.valid (p : Params) : Bool := decide (1 ≤ p.wMax ∧ 1 ≤ p.gateDelay)

/-- The spec's identity string for this hardware (00_scope.md rule R2). Nothing reads it. -/
def Config.identity : String := "CCA-sim/CarryCompletionSimulator, spec of document v7"

/-- The default value of `W_MAX` (00_scope.md rule R6, log entry 1). -/
def Config.wMax : Nat := 64

/-- The value of `GATE_DELAY` on this hardware (00_scope.md rule R7, log entry 2). -/
def Config.gateDelay : Nat := 2

/-- The parameters of the machine that `State.reset` describes. -/
def Config.params : Params := { wMax := Config.wMax, gateDelay := Config.gateDelay }

/-- `MAX_BITS` of the excluded sweep; the block does not read it (00_scope.md rule R9). -/
def Config.maxBits : Nat := 64

/-- `MAX_RUNS` of the excluded sweep; the block does not read it (00_scope.md rule R9). -/
def Config.maxRuns : Nat := 1000

theorem Config.params_valid : Config.params.valid = true := by decide

end Sys2Proof
end

