-- ==== Sys2Proof/Word.lean ====
section
/-! DEFINITION. The value types of 00_scope.md rule R11 and the types of the values a read command returns. -/

namespace Sys2Proof

/-- What an operand bus carries, as an unsigned integer: bit `k` is position `k` (00_scope.md rule R10). The buses of a
block are `W_MAX` bits wide (30_encoding.md rule R60), so it takes the bits below its capacity (log entry 10). -/
abbrev Operand := Nat

/-- The carry state of a position: undetermined, determined 0, determined 1 (00_scope.md rule R11).
The two-rail code 0b11 has no value here (30_encoding.md rule R56). -/
inductive CarryState where
  | U | C0 | C1
deriving DecidableEq, Repr

/-- The kind of a position (30_encoding.md rule R57). -/
inductive Kind where
  | gen | kill | prop
deriving DecidableEq, Repr

/-- The sequencer phase (10_state.md rule R28). -/
inductive Phase where
  | idle | init | prop | final | done
deriving DecidableEq, Repr

/-- A configuration error code (30_encoding.md rule R59). The block's `ERR` takes only the first two. -/
inductive ErrCode where
  | none | cfgWidthRange | cfgPatternLength | cfgPatternChar
deriving DecidableEq, Repr

/-- The RESULT record (30_encoding.md rule R66): `sum` holds `N` bits, position 0 first. -/
structure ResultRecord where
  sum    : List Bool
  cycles : Nat
  delay  : Nat
deriving DecidableEq, Repr

/-- The RESULT record on its packed transport (30_encoding.md rule R66). -/
structure PackedResult (W : Nat) where
  sum    : BitVec W
  cycles : BitVec 8
  delay  : BitVec 16
deriving DecidableEq, Repr

/-- The STATE record (30_encoding.md rule R67): `carry` holds `N` two-rail codes and `sum` `N` bits, position 0 first;
`phase` is the PHASE code. -/
structure StateRecord where
  n     : Nat
  carry : List (BitVec 2)
  sum   : List Bool
  phase : BitVec 3
  cyc   : Nat
deriving DecidableEq, Repr

/-- What a read command hands to the host (40_host_operations.md rules R77, R78, R79). -/
inductive HostValue where
  | result (r : ResultRecord)
  | status (w : BitVec 16)
  | state (r : StateRecord)
deriving DecidableEq, Repr

end Sys2Proof
end

