-- ==== Sys2Proof/Syntax.lean ====
section
/-! DEFINITION. The commands of the block: one constructor per row of spec/opcode_table.json, the command record a
host drives (30_encoding.md rule R60), and what a host can present to the block (40_host_operations.md rule R81). -/

namespace Sys2Proof

/-- A command after decode: one constructor per row of the opcode table (30_encoding.md rule R61).
A STEP is one of five rows, selected by the phase it is issued in. -/
inductive Instr where
  /-- NOP, rule R75 -/
  | nop
  /-- START with `n = WIDTH`, `a = A_BUS`, `b = B_BUS`, rule R76 -/
  | start (width : Nat) (aBus bBus : Operand)
  /-- STEP in IDLE, rule R100 -/
  | stepIdle
  /-- STEP in INIT, rule R97 -/
  | stepInit
  /-- STEP in PROP, rule R98 -/
  | stepProp
  /-- STEP in FINAL, rule R99 -/
  | stepFinal
  /-- STEP in DONE, rule R101 -/
  | stepDone
  /-- READ_RESULT, rule R77 -/
  | readResult
  /-- READ_STATUS, rule R78 -/
  | readStatus
  /-- READ_STATE, rule R79 -/
  | readState
  /-- the reserved command code 0b110, rule R80 -/
  | reserved110
  /-- the reserved command code 0b111, rule R80 -/
  | reserved111
deriving DecidableEq, Repr

/-- The command record of 30_encoding.md rule R60. `width` is a Nat, as that rule allows; the packed 16-bit word
holds it when it is below 256. -/
structure Command where
  cmd   : BitVec 3
  rsv   : BitVec 5
  width : Nat
  aBus  : Operand
  bBus  : Operand
deriving DecidableEq, Repr

/-- One thing the host presents to the block (40_host_operations.md rule R81). -/
inductive HostInput where
  /-- a command on the command interface -/
  | command (c : Command)
  /-- the power-on reset input, asserted (70_reset_and_hazards.md rule R140) -/
  | reset
deriving DecidableEq, Repr

end Sys2Proof
end

