-- ==== Sys2Proof/WellFormed.lean ====
section
/-! DEFINITION. Which terms of `Instr` and `Command` the encodings can carry, and in which phase a STEP row can be
selected. -/

namespace Sys2Proof

/-- The instruction can stand in the packed 16-bit command word: a START's width fits the 8-bit WIDTH field
(30_encoding.md rule R60). -/
def Instr.wellFormed : Instr → Bool
  | .start width _ _ => decide (width < 256)
  | .nop | .stepIdle | .stepInit | .stepProp | .stepFinal | .stepDone => true
  | .readResult | .readStatus | .readState | .reserved110 | .reserved111 => true

/-- The decode can select the instruction in phase `p`: a STEP row only in its own phase, every other row in any
(30_encoding.md rule R61). -/
def Instr.fits (p : Phase) : Instr → Bool
  | .stepIdle => decide (p = .idle)
  | .stepInit => decide (p = .init)
  | .stepProp => decide (p = .prop)
  | .stepFinal => decide (p = .final)
  | .stepDone => decide (p = .done)
  | .nop | .start _ _ _ | .readResult | .readStatus | .readState | .reserved110 | .reserved111 => true

/-- The operands can stand on operand buses of capacity `W` (30_encoding.md rule R60). -/
def Instr.onBuses (W : Nat) : Instr → Bool
  | .start _ a b => decide (a < 2 ^ W ∧ b < 2 ^ W)
  | .nop | .stepIdle | .stepInit | .stepProp | .stepFinal | .stepDone => true
  | .readResult | .readStatus | .readState | .reserved110 | .reserved111 => true

/-- The command record can be packed into a 16-bit word (30_encoding.md rule R60). -/
def Command.packable (c : Command) : Bool := decide (c.width < 256)

end Sys2Proof
end

