-- ==== Sys2Proof/Decode.lean ====
section
/-! DEFINITION. The codes of 30_encoding.md (carry rails, phases, error codes, command words), the decoder, and the
encoder after it. -/

namespace Sys2Proof

/-! ### Codes of the value types -/

/-- The PHASE code (30_encoding.md rule R58). -/
def Phase.code : Phase → BitVec 3
  | .idle => 0b000#3
  | .init => 0b001#3
  | .prop => 0b010#3
  | .final => 0b011#3
  | .done => 0b100#3

/-- The phase a code stands for; 0b101, 0b110 and 0b111 are not phases (30_encoding.md rule R58). -/
def Phase.ofCode? (c : BitVec 3) : Option Phase :=
  if c = 0b000#3 then some .idle
  else if c = 0b001#3 then some .init
  else if c = 0b010#3 then some .prop
  else if c = 0b011#3 then some .final
  else if c = 0b100#3 then some .done
  else none

/-- The error code (30_encoding.md rule R59). -/
def ErrCode.code : ErrCode → BitVec 3
  | .none => 0b000#3
  | .cfgWidthRange => 0b001#3
  | .cfgPatternLength => 0b010#3
  | .cfgPatternChar => 0b011#3

/-- The two-rail code `c1, c0` of a carry state, `c1` the upper bit (30_encoding.md rule R55). -/
def CarryState.rails : CarryState → BitVec 2
  | .U => 0b00#2
  | .C0 => 0b01#2
  | .C1 => 0b10#2

/-- The carry state a two-rail code stands for; 0b11 is no carry state (30_encoding.md rules R55, R56). -/
def CarryState.ofRails? (r : BitVec 2) : Option CarryState :=
  if r = 0b00#2 then some .U
  else if r = 0b01#2 then some .C0
  else if r = 0b10#2 then some .C1
  else none

/-! ### The packed command word -/

/-- The 16-bit command word `WIDTH, RSV, CMD` of a record (30_encoding.md rule R60). -/
def Command.word (c : Command) : BitVec 16 := BitVec.ofNat 8 c.width ++ c.rsv ++ c.cmd

/-- The command record of a 16-bit word and the two operand buses beside it: CMD is `word[2:0]`, RSV `word[7:3]`,
WIDTH `word[15:8]` (30_encoding.md rule R60). -/
def Command.ofWord (w : BitVec 16) (a b : Operand) : Command :=
  { cmd := w.extractLsb' 0 3, rsv := w.extractLsb' 3 5, width := (w.extractLsb' 8 8).toNat, aBus := a, bBus := b }

/-! ### The decoder -/

/-- The row a STEP selects in each phase (30_encoding.md rule R61). -/
def Instr.stepIn : Phase → Instr
  | .idle => .stepIdle
  | .init => .stepInit
  | .prop => .stepProp
  | .final => .stepFinal
  | .done => .stepDone

/-- The row the decode word selects: the command code and the current phase (30_encoding.md rule R61).
Commands other than START ignore WIDTH and the buses (rule R60). -/
def Instr.select (cmd : BitVec 3) (p : Phase) (width : Nat) (a b : Operand) : Instr :=
  if cmd = 0b000#3 then .nop
  else if cmd = 0b001#3 then .start width a b
  else if cmd = 0b010#3 then Instr.stepIn p
  else if cmd = 0b011#3 then .readResult
  else if cmd = 0b100#3 then .readStatus
  else if cmd = 0b101#3 then .readState
  else if cmd = 0b110#3 then .reserved110
  else .reserved111

/-- Why a command record decodes to no row. -/
inductive DecodeError where
  /-- RSV is not 0 (30_encoding.md rule R62) -/
  | reservedBits
deriving DecidableEq, Repr

/-- Decode a command issued in phase `p`. The RSV check comes before every other check (60_exceptions.md rule R123). -/
def decode (p : Phase) (c : Command) : Except DecodeError Instr :=
  if c.rsv = 0#5 then .ok (Instr.select c.cmd p c.width c.aBus c.bBus) else .error .reservedBits

/-- The 6-bit decode word `CMD, PHASE` (30_encoding.md rule R61). -/
def decodeWord (cmd phaseCode : BitVec 3) : BitVec 6 := cmd ++ phaseCode

/-- The row a raw 6-bit decode word falls in. A STEP with an impossible PHASE code falls in none; every other row
takes any PHASE bits (30_encoding.md rule R61). -/
def decodeRow (dw : BitVec 6) (width : Nat) (a b : Operand) : Option Instr :=
  match Phase.ofCode? (dw.extractLsb' 0 3) with
  | some p => some (Instr.select (dw.extractLsb' 3 3) p width a b)
  | none =>
    if dw.extractLsb' 3 3 = 0b010#3 then none
    else some (Instr.select (dw.extractLsb' 3 3) .idle width a b)

/-- The instruction the decoder reads from a row's bits as spec/opcode_table.json numbers them: the 6-bit decode word,
with every bit above it (WIDTH, RSV, the buses) 0. A number of more than 6 bits is no decode word. -/
def decodeTableWord (nbits w : Nat) : Option Instr :=
  if w < 2 ^ nbits ∧ w < 64 then decodeRow (BitVec.ofNat 6 w) 0 0 0 else none

/-! ### The encoder -/

/-- The command code of a row (30_encoding.md rule R61). -/
def Instr.cmdCode : Instr → BitVec 3
  | .nop => 0b000#3
  | .start _ _ _ => 0b001#3
  | .stepIdle => 0b010#3
  | .stepInit => 0b010#3
  | .stepProp => 0b010#3
  | .stepFinal => 0b010#3
  | .stepDone => 0b010#3
  | .readResult => 0b011#3
  | .readStatus => 0b100#3
  | .readState => 0b101#3
  | .reserved110 => 0b110#3
  | .reserved111 => 0b111#3

/-- The WIDTH a row's command record carries: the trial's width for START, else 0, which the block ignores
(30_encoding.md rule R60). -/
def Instr.widthField : Instr → Nat
  | .start width _ _ => width
  | .nop | .stepIdle | .stepInit | .stepProp | .stepFinal | .stepDone => 0
  | .readResult | .readStatus | .readState | .reserved110 | .reserved111 => 0

/-- The operand buses a row's command record carries: the operands for START, else 0 (30_encoding.md rule R60). -/
def Instr.buses : Instr → Operand × Operand
  | .start _ a b => (a, b)
  | .nop | .stepIdle | .stepInit | .stepProp | .stepFinal | .stepDone => (0, 0)
  | .readResult | .readStatus | .readState | .reserved110 | .reserved111 => (0, 0)

/-- The command record of an instruction, RSV 0 (30_encoding.md rules R60, R61). -/
def encode (i : Instr) : Command :=
  { cmd := i.cmdCode, rsv := 0#5, width := i.widthField, aBus := i.buses.1, bBus := i.buses.2 }

/-! ### The opcode table -/

/-- A row of spec/opcode_table.json: a decode word falls in the row when it agrees with `pattern` under `mask`. -/
structure OpcodeRow where
  pattern  : BitVec 6
  mask     : BitVec 6
  mnemonic : String
deriving DecidableEq, Repr

/-- The twelve rows of spec/opcode_table.json, in its order. -/
def opcodeTable : List OpcodeRow :=
  [ ⟨0b000000#6, 0b111000#6, "NOP"⟩,
    ⟨0b001000#6, 0b111000#6, "START"⟩,
    ⟨0b010000#6, 0b111111#6, "STEP.IDLE"⟩,
    ⟨0b010001#6, 0b111111#6, "STEP.INIT"⟩,
    ⟨0b010010#6, 0b111111#6, "STEP.PROP"⟩,
    ⟨0b010011#6, 0b111111#6, "STEP.FINAL"⟩,
    ⟨0b010100#6, 0b111111#6, "STEP.DONE"⟩,
    ⟨0b011000#6, 0b111000#6, "READ_RESULT"⟩,
    ⟨0b100000#6, 0b111000#6, "READ_STATUS"⟩,
    ⟨0b101000#6, 0b111000#6, "READ_STATE"⟩,
    ⟨0b110000#6, 0b111000#6, "RESERVED.110"⟩,
    ⟨0b111000#6, 0b111000#6, "RESERVED.111"⟩ ]

/-- The decode word falls in the row. -/
def OpcodeRow.takes (r : OpcodeRow) (dw : BitVec 6) : Bool := dw &&& r.mask == r.pattern

/-- The mnemonic of an instruction's row. -/
def Instr.mnemonic : Instr → String
  | .nop => "NOP"
  | .start _ _ _ => "START"
  | .stepIdle => "STEP.IDLE"
  | .stepInit => "STEP.INIT"
  | .stepProp => "STEP.PROP"
  | .stepFinal => "STEP.FINAL"
  | .stepDone => "STEP.DONE"
  | .readResult => "READ_RESULT"
  | .readStatus => "READ_STATUS"
  | .readState => "READ_STATE"
  | .reserved110 => "RESERVED.110"
  | .reserved111 => "RESERVED.111"

end Sys2Proof
end

