-- ==== Sys2Proof/Machine/State.lean ====
section
/-! DEFINITION. The state of the machine: the block's registers, exactly those of 10_state.md rule R20, the fault mark
of 60_exceptions.md rule R127, the parameters of 00_scope.md rules R6 and R7, and the two ends of the host interface
(40_host_operations.md rule R81). -/

namespace Sys2Proof.Machine

/-- Why the machine stops for good (60_exceptions.md rule R127). -/
inductive Fault where
  /-- BOUNDS: an index outside `[0, W_MAX)`. Raised by the checked register accesses and by the test harness's write of
  a carry entry; no command forms such an index. Safe: the model stops. -/
  | bounds
  /-- ILLEGAL_RAIL: the packed carry code 0b11 was decoded. Raised by the decode of packed carry codes and by the test
  harness's write of a carry entry; no command decodes one. Safe: the model stops. -/
  | illegalRail
deriving DecidableEq, Repr

/-- Why a command has no meaning in the current state (60_exceptions.md rule R128). -/
inductive Refusal where
  /-- an instruction the model gives no meaning; no arm of `exec` uses it. Safe: the model stops. -/
  | notModelled (mnemonic : String)
  /-- BUSY: START while PHASE is INIT, PROP or FINAL; raised by START. Safe: the spec's own refusal. -/
  | busy
  /-- NOT_DONE: READ_RESULT while PHASE is not DONE; raised by READ_RESULT. Safe: the spec's own refusal. -/
  | notDone
  /-- RESERVED_CMD: command code 0b110 or 0b111; raised by the two reserved rows. Safe: the spec's own refusal. -/
  | reservedCmd
  /-- RESERVED_BITS: a command whose RSV field is not 0; raised by the step when decode refuses. Safe: the spec's own
  refusal. -/
  | reservedBits
deriving DecidableEq, Repr

/-- The registers of a CCA block of capacity `W` (10_state.md rule R20: the state of the block is exactly these).
Indices are typed `Fin W`, so no register access of a command can be out of bounds (60_exceptions.md rule R127). -/
structure Block (W : Nat) where
  /-- operand A (10_state.md rule R21) -/
  a : BitVec W
  /-- operand B (10_state.md rule R21) -/
  b : BitVec W
  /-- width of the current trial, 0 when none is loaded (10_state.md rule R22) -/
  n : Fin (W + 1)
  /-- carry state of each position, its carry out (10_state.md rule R23) -/
  c : Vector CarryState W
  /-- sum, provisional until DONE (10_state.md rule R26) -/
  s : BitVec W
  /-- cycles charged in the current trial (10_state.md rule R27) -/
  cyc : Nat
  /-- sequencer phase (10_state.md rule R28) -/
  phase : Phase
  /-- last configuration error (10_state.md rule R29) -/
  err : ErrCode
deriving DecidableEq, Repr

/-- The block right after power-on reset (70_reset_and_hazards.md rule R140). -/
def Block.powerOn (W : Nat) : Block W :=
  { a := 0, b := 0, n := 0, c := Vector.replicate W .U, s := 0, cyc := 0, phase := .idle, err := .none }

/-- The machine: its parameters, a block of capacity `W_MAX`, its fault mark, and the host interface. -/
structure State where
  /-- the parameters, fixed while the block runs (70_reset_and_hazards.md rule R143); no operation writes them -/
  params : Params
  /-- the block's registers (10_state.md rule R20) -/
  block : Block params.wMax
  /-- the fault mark (60_exceptions.md rule R127) -/
  faultMark : Option Fault
  /-- what the host presents next, first to be issued first (20_memory.md rule R49); the model's own field -/
  inputs : List HostInput
  /-- what read commands have returned to the host, oldest first; the model's own field, no rule of the block reads it -/
  returned : List HostValue
deriving DecidableEq, Repr

/-- The machine of parameters `p` right after power-on reset: no fault mark (70_reset_and_hazards.md rule R140), the host
silent. -/
def State.powerOn (p : Params) : State :=
  { params := p, block := Block.powerOn p.wMax, faultMark := none, inputs := [], returned := [] }

/-- The machine of this hardware's parameters right after power-on reset. -/
def State.reset : State := State.powerOn Config.params

end Sys2Proof.Machine
end

