-- ==== Sys2Proof/Machine/Operands.lean ====
section
/-! DEFINITION. Operand assembly (30_encoding.md section 4) and what a position's operand bits and lower neighbour say
(41_carry_cycles.md section 1). -/

namespace Sys2Proof.Machine

/-- The bit vector whose bit `k` is `f k` (bit `k` is position `k`, 00_scope.md rule R10). -/
def bitsOf : (W : Nat) → (Fin W → Bool) → BitVec W
  | 0, _ => 0#0
  | w + 1, f => BitVec.cons (f (Fin.last w)) (bitsOf w fun k => f k.castSucc)

/-- What START keeps of an operand bus: the bits below `n`, 0 above (30_encoding.md rule R65). -/
def loadBus {W : Nat} (n : Fin (W + 1)) (bus : BitVec W) : BitVec W :=
  bitsOf W fun k => if k.val < n.val then bus[k] else false

/-- What a `W`-bit bus carries of an unsigned integer operand: bit `k` is `(v >> k) & 1` (30_encoding.md rule R65). -/
def busOfNat (W v : Nat) : BitVec W := bitsOf W fun k => v.testBit k.val

/-- The unsigned value of the low `n` bits of a register (20_memory.md rule R41). -/
def valOf {W : Nat} (n : Nat) (x : BitVec W) : Nat := x.toNat % 2 ^ n

/-- The value a list of bits, position 0 first, denotes (20_memory.md rules R41, R42). -/
def valOfBits : List Bool → Nat
  | [] => 0
  | x :: xs => x.toNat + 2 * valOfBits xs

/-- The source's `fromPattern(width, pattern)`, which runs in the host: length check, then characters, then character
`i` gives position `i` (30_encoding.md rules R63, R64). -/
def fromPattern (W n : Nat) (p : List Char) : Except ErrCode (BitVec W) :=
  if p.length ≠ n then .error .cfgPatternLength
  else if p.all (fun ch => ch == '0' || ch == '1') then .ok (bitsOf W fun k => p[k.val]? == some '1')
  else .error .cfgPatternChar

/-- The widths START accepts, `1 <= n <= W` (00_scope.md rule R8). -/
def acceptedWidth (W n : Nat) : Option (Fin (W + 1)) :=
  if h : 1 ≤ n ∧ n ≤ W then some ⟨n, Nat.lt_succ_of_le h.2⟩ else none

/-- The kind of a position (41_carry_cycles.md rule R90). -/
def Block.kind {W : Nat} (b : Block W) (k : Fin W) : Kind :=
  match b.a[k], b.b[k] with
  | true, true => .gen
  | false, false => .kill
  | true, false => .prop
  | false, true => .prop

/-- The carry into position `k`, read from the carry-state array `x` (41_carry_cycles.md rule R91). -/
def cin {W : Nat} (k : Fin W) (x : Vector CarryState W) : CarryState :=
  if k.val = 0 then .C0 else x[k.val - 1]

/-- The provisional carry value of a carry state (41_carry_cycles.md rule R92). -/
def pv : CarryState → Bool
  | .U => false
  | .C0 => false
  | .C1 => true

end Sys2Proof.Machine
end

