-- ==== Sys2Proof/Machine/Flags.lean ====
section
/-! DEFINITION. The derived signals and the views a host reads. The block has no condition flags (10_state.md rule R32);
these are the functions of the state that stand where flags would. -/

namespace Sys2Proof.Machine

/-- Carry completion: no position below `n` is undetermined (10_state.md rule R30). -/
def complete {W : Nat} (x : Vector CarryState W) (n : Fin (W + 1)) : Bool :=
  decide (∀ k : Fin W, k.val < n.val → x[k] ≠ .U)

/-- The DONE level (10_state.md rule R30). -/
def Block.doneLevel {W : Nat} (b : Block W) : Bool := decide (b.phase = .done)

/-- The delay at `gd` units a cycle (41_carry_cycles.md rule R112). -/
def Block.delay {W : Nat} (gd : Nat) (b : Block W) : Nat := b.cyc * gd

/-- A trial runs: START is refused BUSY (40_host_operations.md rule R76). -/
def trialRuns : Phase → Bool
  | .idle => false
  | .init => true
  | .prop => true
  | .final => true
  | .done => false

/-- STATUS bit 6 (10_state.md rule R33). -/
def Block.completeBit {W : Nat} (b : Block W) : Bool := complete b.c b.n && decide (1 ≤ b.n.val)

/-- The status word: CYC mod 256, a reserved 0, COMPLETE, ERR, PHASE, from bit 15 down (10_state.md rule R33). -/
def Block.status {W : Nat} (b : Block W) : BitVec 16 :=
  BitVec.ofNat 8 b.cyc ++ 0#1 ++ BitVec.ofBool b.completeBit ++ b.err.code ++ b.phase.code

/-- The sum bits below `N`, position 0 first. -/
def Block.sumBits {W : Nat} (b : Block W) : List Bool :=
  List.ofFn fun k : Fin b.n.val => b.s[k.val]'(Nat.lt_of_lt_of_le k.isLt (Nat.le_of_lt_succ b.n.isLt))

/-- The carry states below `N`, position 0 first. -/
def Block.carries {W : Nat} (b : Block W) : List CarryState :=
  List.ofFn fun k : Fin b.n.val => b.c[k.val]'(Nat.lt_of_lt_of_le k.isLt (Nat.le_of_lt_succ b.n.isLt))

/-- The RESULT record at `gd` units a cycle (30_encoding.md rule R66). -/
def Block.resultRecord {W : Nat} (gd : Nat) (b : Block W) : ResultRecord :=
  { sum := b.sumBits, cycles := b.cyc, delay := b.delay gd }

/-- The RESULT record on its packed transport (30_encoding.md rule R66). -/
def Block.packedResult {W : Nat} (gd : Nat) (b : Block W) : PackedResult W :=
  { sum := bitsOf W fun k => if k.val < b.n.val then b.s[k] else false
    cycles := BitVec.ofNat 8 b.cyc
    delay := BitVec.ofNat 16 (b.delay gd) }

/-- The STATE record (30_encoding.md rule R67). -/
def Block.stateRecord {W : Nat} (b : Block W) : StateRecord :=
  { n := b.n.val, carry := b.carries.map CarryState.rails, sum := b.sumBits, phase := b.phase.code, cyc := b.cyc }

/-- Two-rail codes packed into one number, the code of position `k` at bits `[2k+1:2k]` (30_encoding.md rule R67). -/
def packCarry : List (BitVec 2) → Nat
  | [] => 0
  | r :: rs => r.toNat + 4 * packCarry rs

/-- Decode `m` packed two-rail codes; a code 0b11 is the fault ILLEGAL_RAIL (30_encoding.md rule R56). -/
def unpackCarry : Nat → Nat → Except Fault (List CarryState)
  | 0, _ => .ok []
  | m + 1, v =>
    match CarryState.ofRails? (BitVec.ofNat 2 v), unpackCarry m (v / 4) with
    | some x, .ok xs => .ok (x :: xs)
    | some _, .error f => .error f
    | none, _ => .error .illegalRail

end Sys2Proof.Machine
end

