-- ==== Sys2Proof/Machine/Ops.lean ====
section
/-! DEFINITION. The named operations over the registers: loading a trial, one carry cycle, the one error entry,
power-on reset, faults, the checked register accesses, and taking the host's next input. -/

namespace Sys2Proof.Machine

/-! ### The trial -/

/-- An accepted START's writes (40_host_operations.md rule R76). -/
def Block.load {W : Nat} (_old : Block W) (n : Fin (W + 1)) (aBus bBus : BitVec W) : Block W :=
  { a := loadBus n aBus
    b := loadBus n bBus
    n := n
    c := Vector.replicate W .U
    s := 0
    cyc := 0
    phase := .init
    err := .none }

/-- One cycle of carry resolution, read from the start-of-cycle carry states (41_carry_cycles.md rule R93). -/
def Block.resolve {W : Nat} (b : Block W) : Vector CarryState W :=
  Vector.ofFn fun k : Fin W =>
    if b.n.val ≤ k.val then b.c[k]
    else match b.c[k] with
      | .C0 => .C0
      | .C1 => .C1
      | .U =>
        match b.kind k with
        | .gen => .C1
        | .kill => .C0
        | .prop => cin k b.c

/-- One cycle of sum update, read from the start-of-cycle carry states (41_carry_cycles.md rule R94). -/
def Block.sumUpdate {W : Nat} (b : Block W) : BitVec W :=
  bitsOf W fun k => if k.val < b.n.val then (b.a[k] ^^ b.b[k]) ^^ pv (cin k b.c) else b.s[k]

/-- The cycle STEP runs in INIT and in PROP: sum, carries, the cycle count, and the phase that the completion test on
the end-of-cycle carries gives (41_carry_cycles.md rules R95, R97, R98). -/
def Block.carryCycle {W : Nat} (b : Block W) : Block W :=
  { b with
    s := b.sumUpdate
    c := b.resolve
    cyc := b.cyc + 1
    phase := if complete b.resolve b.n then .final else .prop }

/-- The finalization cycle (41_carry_cycles.md rule R99). -/
def Block.finalCycle {W : Nat} (b : Block W) : Block W :=
  { b with s := b.sumUpdate, cyc := b.cyc + 1, phase := .done }

/-- What one STEP does to the block, by its phase (41_carry_cycles.md rules R96 to R101). -/
def Block.advance {W : Nat} (b : Block W) : Block W :=
  match b.phase with
  | .idle => b
  | .init => b.carryCycle
  | .prop => b.carryCycle
  | .final => b.finalCycle
  | .done => b

/-- The block after `t` STEPs. -/
def Block.advanceN {W : Nat} : Nat → Block W → Block W
  | 0, b => b
  | t + 1, b => (Block.advanceN t b).advance

/-! ### The error entry -/

/-- The effect of a ConfigurationError on the block: four writes, A, B, C and S keep their values
(60_exceptions.md rule R124). -/
def Block.rejectTrial {W : Nat} (code : ErrCode) (b : Block W) : Block W :=
  { b with err := code, n := 0, cyc := 0, phase := .idle }

/-- Taking the block's one exception, a ConfigurationError. It saves nothing and needs no return: the next accepted
START clears it (60_exceptions.md rules R124, R125). -/
def State.raiseConfigError (code : ErrCode) (s : State) : State :=
  { s with block := s.block.rejectTrial code }

/-! ### State updates the meanings use -/

/-- Replace the block's registers. -/
def State.withBlock (s : State) (b : Block s.params.wMax) : State := { s with block := b }

/-- Hand a value to the host. -/
def State.give (s : State) (v : HostValue) : State := { s with returned := s.returned ++ [v] }

/-- The state with no fault mark. -/
def State.withoutFault (s : State) : State := { s with faultMark := none }

/-- Power-on reset: every register at its power-on value and the fault mark cleared; what the host has already received
and still has to send is the host's (70_reset_and_hazards.md rule R140). -/
def State.powerOnReset (s : State) : State :=
  (s.withBlock (Block.powerOn s.params.wMax)).withoutFault

/-- Mark the state as faulted for good. A later fault leaves the first mark (60_exceptions.md rule R127). -/
def State.markFault (f : Fault) (s : State) : State :=
  { s with faultMark := match s.faultMark with
      | some g => some g
      | none => some f }

/-! ### Checked register accesses: the source's BitVector contract (20_memory.md rules R40, R44) -/

/-- Read bit `k`; BOUNDS outside the capacity. -/
def getBit {W : Nat} (x : BitVec W) (k : Nat) : Except Fault Bool :=
  if h : k < W then .ok x[k] else .error .bounds

/-- Write bit `k`; BOUNDS outside the capacity. -/
def writeBit {W : Nat} (x : BitVec W) (k : Nat) (v : Bool) : Except Fault (BitVec W) :=
  if k < W then .ok (bitsOf W fun j => if j.val = k then v else x[j]) else .error .bounds

/-- Set bit `k` to 1; BOUNDS outside the capacity. -/
def setBit {W : Nat} (x : BitVec W) (k : Nat) : Except Fault (BitVec W) := writeBit x k true

/-- Clear bit `k` to 0; BOUNDS outside the capacity. -/
def clearBit {W : Nat} (x : BitVec W) (k : Nat) : Except Fault (BitVec W) := writeBit x k false

/-- A test harness writes the packed carry code of one position from outside the block. An index outside the capacity
is the fault BOUNDS and the code 0b11 the fault ILLEGAL_RAIL (30_encoding.md rule R56, 60_exceptions.md rule R127).
No command does this. DESIGN CHOICE (log entry 6): a write that meets both faults is BOUNDS, the index being tested
first; the spec gives no order. -/
def State.harnessWriteCarry (k : Nat) (code : BitVec 2) (s : State) : State :=
  if h : k < s.params.wMax then
    match CarryState.ofRails? code with
    | some x => s.withBlock { s.block with c := s.block.c.set k x h }
    | none => s.markFault .illegalRail
  else s.markFault .bounds

/-! ### The host interface -/

/-- What the next step finds at the host interface. -/
inductive Fetched where
  /-- the host presents nothing -/
  | nothing
  /-- the reset input is asserted; the rest waits -/
  | reset (rest : List HostInput)
  /-- a command; the rest waits -/
  | command (c : Command) (rest : List HostInput)
deriving DecidableEq, Repr

/-- The host's next input: the command stream is issued in order (20_memory.md rule R49). -/
def State.fetch (s : State) : Fetched :=
  match s.inputs with
  | [] => .nothing
  | .reset :: rest => .reset rest
  | .command c :: rest => .command c rest

/-- The state with the pending inputs replaced. -/
def State.withInputs (s : State) (is : List HostInput) : State := { s with inputs := is }

/-- The host presents a command next, before everything it already has to send. -/
def State.present (s : State) (c : Command) : State := s.withInputs (.command c :: s.inputs)

/-- The command of a decode word's CMD bits, with WIDTH, RSV and both buses 0. -/
def Command.ofTableWord (w : Nat) : Command :=
  { cmd := (BitVec.ofNat 6 w).extractLsb' 3 3, rsv := 0#5, width := 0, aBus := 0, bBus := 0 }

/-- The block in the phase a decode word's PHASE bits name; unchanged where they name none. -/
def Block.withTablePhase {W : Nat} (b : Block W) (w : Nat) : Block W :=
  match Phase.ofCode? ((BitVec.ofNat 6 w).extractLsb' 0 3) with
  | some p => { b with phase := p }
  | none => b

end Sys2Proof.Machine
end

