-- ==== Sys2Proof/Machine/CarryCycles.lean ====
section
/-! DEFINITION. The meanings of STEP, one per phase (41_carry_cycles.md section 2). The decode selects the row by the
phase, so a row's meaning does not test it again. -/

namespace Sys2Proof.Machine

/-- STEP in IDLE: nothing changes, no cycle is charged (41_carry_cycles.md rule R100). -/
def execStepIdle (s : State) : Host.Outcome State Fault Refusal := .next s

/-- STEP in INIT: the initial cycle (41_carry_cycles.md rule R97). -/
def execStepInit (s : State) : Host.Outcome State Fault Refusal := .next (s.withBlock s.block.carryCycle)

/-- STEP in PROP: a propagation cycle (41_carry_cycles.md rule R98). -/
def execStepProp (s : State) : Host.Outcome State Fault Refusal := .next (s.withBlock s.block.carryCycle)

/-- STEP in FINAL: the finalization cycle (41_carry_cycles.md rule R99). -/
def execStepFinal (s : State) : Host.Outcome State Fault Refusal := .next (s.withBlock s.block.finalCycle)

/-- STEP in DONE: nothing changes, no cycle is charged (41_carry_cycles.md rule R101). -/
def execStepDone (s : State) : Host.Outcome State Fault Refusal := .next s

end Sys2Proof.Machine
end

