-- ==== Sys2Proof/Machine/HostOperations.lean ====
section
/-! DEFINITION. The meanings of the host commands (40_host_operations.md). -/

namespace Sys2Proof.Machine

/-- NOP: nothing changes (40_host_operations.md rule R75). -/
def execNop (s : State) : Host.Outcome State Fault Refusal := .next s

/-- START: refused BUSY while a trial runs, a ConfigurationError for a width outside `[1, W_MAX]`, else the trial is
loaded; the checks in the order of 60_exceptions.md rule R123 (40_host_operations.md rule R76). -/
def execStart (width : Nat) (aBus bBus : Operand) (s : State) : Host.Outcome State Fault Refusal :=
  if trialRuns s.block.phase then .refused .busy
  else match acceptedWidth s.params.wMax width with
    | none => .next (s.raiseConfigError .cfgWidthRange)
    | some n => .next (s.withBlock (s.block.load n (busOfNat s.params.wMax aBus) (busOfNat s.params.wMax bBus)))

/-- READ_RESULT: refused NOT_DONE outside DONE, else the RESULT record is returned (40_host_operations.md rule R77). -/
def execReadResult (s : State) : Host.Outcome State Fault Refusal :=
  if s.block.doneLevel then .next (s.give (.result (s.block.resultRecord s.params.gateDelay)))
  else .refused .notDone

/-- READ_STATUS: the status word is returned (40_host_operations.md rule R78). -/
def execReadStatus (s : State) : Host.Outcome State Fault Refusal := .next (s.give (.status s.block.status))

/-- READ_STATE: the STATE record is returned (40_host_operations.md rule R79). -/
def execReadState (s : State) : Host.Outcome State Fault Refusal := .next (s.give (.state s.block.stateRecord))

/-- The reserved code 0b110: refused RESERVED_CMD in every phase (40_host_operations.md rule R80). -/
def execReserved110 (_s : State) : Host.Outcome State Fault Refusal := .refused .reservedCmd

/-- The reserved code 0b111: refused RESERVED_CMD in every phase (40_host_operations.md rule R80). -/
def execReserved111 (_s : State) : Host.Outcome State Fault Refusal := .refused .reservedCmd

end Sys2Proof.Machine
end

