-- ==== Sys2Proof/Machine/Dispatch.lean ====
section
/-! DEFINITION. One arm per row of spec/opcode_table.json. -/

namespace Sys2Proof.Machine

def exec (i : Instr) (s : State) : Host.Outcome State Fault Refusal :=
  match i with
  | .nop => Sys2Proof.Machine.execNop s
  | .start width aBus bBus => Sys2Proof.Machine.execStart width aBus bBus s
  | .stepIdle => Sys2Proof.Machine.execStepIdle s
  | .stepInit => Sys2Proof.Machine.execStepInit s
  | .stepProp => Sys2Proof.Machine.execStepProp s
  | .stepFinal => Sys2Proof.Machine.execStepFinal s
  | .stepDone => Sys2Proof.Machine.execStepDone s
  | .readResult => Sys2Proof.Machine.execReadResult s
  | .readStatus => Sys2Proof.Machine.execReadStatus s
  | .readState => Sys2Proof.Machine.execReadState s
  | .reserved110 => Sys2Proof.Machine.execReserved110 s
  | .reserved111 => Sys2Proof.Machine.execReserved111 s

end Sys2Proof.Machine
end

