-- ==== Sys2Proof/Machine/Step.lean ====
section
/-! DEFINITION. One step of the machine: the host's next input takes effect (20_memory.md rule R49). -/

namespace Sys2Proof.Machine

/-- One step. With nothing presented the block keeps its whole state (60_exceptions.md rule R139). The reset input
takes effect at any time, in a faulted state too (70_reset_and_hazards.md rule R140). A command in a faulted state
answers with the fault (60_exceptions.md rule R127); else it is decoded under the current phase and runs. -/
def step (s : State) : Host.Outcome State Fault Refusal :=
  match s.fetch with
  | .nothing => .next s
  | .reset rest => .next (s.withInputs rest).powerOnReset
  | .command c rest =>
    match s.faultMark with
    | some f => .fault f
    | none =>
      match decode s.block.phase c with
      | .ok i => exec i (s.withInputs rest)
      | .error .reservedBits => .refused .reservedBits

/-- The state whose next step runs the instruction of a table row's bits `w`, its 6-bit decode word: the host presents
the command of its CMD bits, the block is in the phase its PHASE bits name (where they name one), and no fault mark is
set, so that the step runs exactly the instruction `decodeTableWord nbits w` answers (log entry 14). -/
def State.withFetchWord (s : State) (_nbits w : Nat) : State :=
  ((s.withBlock (s.block.withTablePhase w)).present (Command.ofTableWord w)).withoutFault

end Sys2Proof.Machine
end

