-- ==== Sys2Proof/Machine/Adder.lean ====
section
/-! DEFINITION. The quantities the laws of the adder speak of (41_carry_cycles.md section 3). No command reads them;
they are functions of the operands alone, written apart from the cycle rules. -/

namespace Sys2Proof.Machine

/-- Position `k` is a PROP position: its operand bits differ (41_carry_cycles.md rule R90). -/
def differ {W : Nat} (a b : BitVec W) (k : Nat) : Bool := a.getLsbD k ^^ b.getLsbD k

/-- The carry of binary addition out of position `k` (41_carry_cycles.md rule R109, step 1). -/
def trueCarry {W : Nat} (a b : BitVec W) : Nat → Bool
  | 0 => a.getLsbD 0 && b.getLsbD 0
  | k + 1 => if differ a b (k + 1) then trueCarry a b k else a.getLsbD (k + 1)

/-- `r(k)`, the cycle in which position `k` leaves `U` (41_carry_cycles.md rule R103). -/
def resolutionCycle {W : Nat} (a b : BitVec W) : Nat → Nat
  | 0 => 1
  | k + 1 => if differ a b (k + 1) then resolutionCycle a b k + 1 else 1

/-- The length of the run of PROP positions that ends at position `k`, position 0 never counting. -/
def runEndingAt {W : Nat} (a b : BitVec W) : Nat → Nat
  | 0 => 0
  | k + 1 => if differ a b (k + 1) then runEndingAt a b k + 1 else 0

/-- `L(A, B, n)`, the longest run of PROP positions inside `[1, n-1]` (41_carry_cycles.md rule R104). -/
def longestRun {W : Nat} (a b : BitVec W) : Nat → Nat
  | 0 => 0
  | n + 1 => max (longestRun a b n) (runEndingAt a b n)

/-- `T`, the cycle in which carry completion is reached (41_carry_cycles.md rule R104). -/
def completionCycle {W : Nat} (a b : BitVec W) (n : Nat) : Nat := 1 + longestRun a b n

/-- The cycles of a trial of width `n` (41_carry_cycles.md rule R104). -/
def cycleCount {W : Nat} (a b : BitVec W) (n : Nat) : Nat := longestRun a b n + 2

/-- The determined carry state of a carry bit. -/
def carryOf : Bool → CarryState
  | false => .C0
  | true => .C1

/-- The positions `i .. i + len - 1` lie inside `[1, n-1]` and are all PROP (41_carry_cycles.md rule R104). -/
def IsPropRun {W : Nat} (a b : BitVec W) (n i len : Nat) : Prop :=
  1 ≤ i ∧ i + len ≤ n ∧ ∀ j, i ≤ j → j < i + len → differ a b j = true

/-- The block `t` STEPs after a START of width `n` was accepted in block `old`. -/
def trialAt {W : Nat} (old : Block W) (n : Fin (W + 1)) (a b : BitVec W) (t : Nat) : Block W :=
  (old.load n a b).advanceN t

end Sys2Proof.Machine
end

