-- ==== Sys2Proof/Machine/Assembler.lean ====
section
/-! DEFINITION. The host's side of the command interface: the text syntax, the pseudo-commands and their expansions
(30_encoding.md section 6). None of it is state of the block. -/

namespace Sys2Proof.Machine

/-- A line of the text syntax, pseudo-commands included (30_encoding.md rule R68). -/
inductive AsmLine where
  | nop
  | start (n a b : Nat)
  | step
  | readResult
  | readStatus
  | readState
  | startp (pa pb : List Char)
  | stepStar
  | run (n a b : Nat)
  | runp (pa pb : List Char)
deriving DecidableEq, Repr

/-- What the host does at the command interface. -/
inductive HostAction where
  /-- issue one command -/
  | issue (c : Command)
  /-- STEP*: repeat STEP until PHASE is DONE or IDLE -/
  | stepStar
deriving DecidableEq, Repr

/-! ### Expansion -/

/-- START with integer operands (30_encoding.md rules R65, R68). -/
def startCommand (n a b : Nat) : Command := encode (.start n a b)

/-- The STEP command; which row it selects is the block's phase (30_encoding.md rule R61). -/
def stepCommand : Command := encode .stepInit

/-- STARTP for a block of capacity `W`: the width is the length of `pa`; the first pattern error is reported and nothing
is issued (30_encoding.md rules R68, R69; 60_exceptions.md rule R123). -/
def startpCommand (W : Nat) (pa pb : List Char) : Except ErrCode Command :=
  match fromPattern W pa.length pa with
  | .error e => .error e
  | .ok a =>
    match fromPattern W pa.length pb with
    | .error e => .error e
    | .ok b => .ok (encode (.start pa.length a.toNat b.toNat))

/-- The expansion of a line for a block of capacity `W`, or the error reported to the host (30_encoding.md rule R68).
DESIGN CHOICE (log entry 19): a RUNP whose pattern fails issues nothing at all. The rule says so of its STARTP and is
silent on the STEP* and READ_RESULT after it, which are dropped with it. -/
def AsmLine.expand (W : Nat) : AsmLine → Except ErrCode (List HostAction)
  | .nop => .ok [.issue (encode .nop)]
  | .start n a b => .ok [.issue (startCommand n a b)]
  | .step => .ok [.issue stepCommand]
  | .readResult => .ok [.issue (encode .readResult)]
  | .readStatus => .ok [.issue (encode .readStatus)]
  | .readState => .ok [.issue (encode .readState)]
  | .startp pa pb =>
    match startpCommand W pa pb with
    | .error e => .error e
    | .ok c => .ok [.issue c]
  | .stepStar => .ok [.stepStar]
  | .run n a b => .ok [.issue (startCommand n a b), .stepStar, .issue (encode .readResult)]
  | .runp pa pb =>
    match startpCommand W pa pb with
    | .error e => .error e
    | .ok c => .ok [.issue c, .stepStar, .issue (encode .readResult)]

/-! ### Execution -/

/-- The host issues one command and the block takes it. -/
def State.issue (s : State) (c : Command) : Host.Outcome State Fault Refusal := step (s.present c)

/-- STEP issued at most `fuel` times, stopping where the poll by READ_STATUS shows PHASE = DONE or IDLE
(30_encoding.md rule R68). DESIGN CHOICE (log entry 15): the poll comes before each STEP, its values are not recorded
among those the host has received, and in a fault-marked state, whatever its PHASE, it is answered by the fault as
every command is, so STEP* ends there with the fault. -/
def State.stepUntilQuiet : Nat → State → Host.Outcome State Fault Refusal
  | 0, s => .next s
  | fuel + 1, s =>
    match s.issue (encode .readStatus) with
    | .fault f => .fault f
    | .refused r => .refused r
    | .next _ =>
      if trialRuns s.block.phase then
        match s.issue stepCommand with
        | .next t => State.stepUntilQuiet fuel t
        | .fault f => .fault f
        | .refused r => .refused r
      else .next s

/-- One host action; STEP* issues at most `N + 1` STEPs (30_encoding.md rule R68). -/
def State.perform (s : State) : HostAction → Host.Outcome State Fault Refusal
  | .issue c => s.issue c
  | .stepStar => State.stepUntilQuiet (s.block.n.val + 1) s

/-- The actions in order, up to the first that gives no next state. -/
def State.performAll : List HostAction → State → Host.Outcome State Fault Refusal
  | [], s => .next s
  | x :: xs, s =>
    match s.perform x with
    | .next t => State.performAll xs t
    | .fault f => .fault f
    | .refused r => .refused r

/-! ### Text -/

/-- A token of a line. -/
inductive Token where
  | word (cs : List Char)
  | quoted (cs : List Char)
deriving DecidableEq, Repr

/-- Where the lexer stands; a token in progress is held last character first. -/
inductive LexMode where
  | between
  | inWord (acc : List Char)
  | inQuote (acc : List Char)
deriving DecidableEq, Repr

/-- Space, tab and comma separate tokens. -/
def isSeparator (ch : Char) : Bool := ch.toNat == 32 || ch.toNat == 9 || ch.toNat == 44

/-- The double quote. -/
def isQuote (ch : Char) : Bool := ch.toNat == 34

/-- The semicolon, which starts a comment (30_encoding.md rule R68). -/
def isComment (ch : Char) : Bool := ch.toNat == 59

/-- The tokens of a line; none where a quote is not closed. -/
def lex : LexMode → List Char → Option (List Token)
  | .between, [] => some []
  | .inWord acc, [] => some [.word acc.reverse]
  | .inQuote _, [] => none
  | .between, ch :: cs =>
    if isComment ch then some []
    else if isSeparator ch then lex .between cs
    else if isQuote ch then lex (.inQuote []) cs
    else lex (.inWord [ch]) cs
  | .inWord acc, ch :: cs =>
    if isComment ch then some [.word acc.reverse]
    else if isSeparator ch then (lex .between cs).map (.word acc.reverse :: ·)
    else if isQuote ch then (lex (.inQuote []) cs).map (.word acc.reverse :: ·)
    else lex (.inWord (ch :: acc)) cs
  | .inQuote acc, ch :: cs =>
    if isQuote ch then (lex .between cs).map (.quoted acc.reverse :: ·)
    else lex (.inQuote (ch :: acc)) cs

/-- The value of a digit in bases up to 16. -/
def digitValue (ch : Char) : Nat :=
  if 48 ≤ ch.toNat ∧ ch.toNat ≤ 57 then ch.toNat - 48
  else if 97 ≤ ch.toNat ∧ ch.toNat ≤ 102 then ch.toNat - 87
  else if 65 ≤ ch.toNat ∧ ch.toNat ≤ 70 then ch.toNat - 55
  else 16

/-- A non-empty number in a base, most significant digit first. -/
def parseDigits (base : Nat) (cs : List Char) : Option Nat :=
  if cs ≠ [] ∧ cs.all (fun ch => decide (digitValue ch < base)) then
    some (cs.foldl (fun v ch => v * base + digitValue ch) 0)
  else none

/-- A 0x-hex integer (30_encoding.md rule R68). -/
def parseHex : List Char → Option Nat
  | '0' :: 'x' :: cs => parseDigits 16 cs
  | _ => none

/-- The three numbers of START and RUN: `n` decimal, `a` and `b` 0x-hex (30_encoding.md rule R68). -/
def parseOperands (mk : Nat → Nat → Nat → AsmLine) (n a b : List Char) : Option AsmLine :=
  match parseDigits 10 n, parseHex a, parseHex b with
  | some n, some a, some b => some (mk n a b)
  | _, _, _ => none

/-- The line a list of tokens spells; none where it spells none. -/
def parseTokens : List Token → Option AsmLine
  | [.word w] =>
    if w = ['N', 'O', 'P'] then some .nop
    else if w = ['S', 'T', 'E', 'P'] then some .step
    else if w = ['S', 'T', 'E', 'P', '*'] then some .stepStar
    else if w = ['R', 'E', 'A', 'D', '_', 'R', 'E', 'S', 'U', 'L', 'T'] then some .readResult
    else if w = ['R', 'E', 'A', 'D', '_', 'S', 'T', 'A', 'T', 'U', 'S'] then some .readStatus
    else if w = ['R', 'E', 'A', 'D', '_', 'S', 'T', 'A', 'T', 'E'] then some .readState
    else none
  | [.word w, .word n, .word a, .word b] =>
    if w = ['S', 'T', 'A', 'R', 'T'] then parseOperands .start n a b
    else if w = ['R', 'U', 'N'] then parseOperands .run n a b
    else none
  | [.word w, .quoted pa, .quoted pb] =>
    if w = ['S', 'T', 'A', 'R', 'T', 'P'] then some (.startp pa pb)
    else if w = ['R', 'U', 'N', 'P'] then some (.runp pa pb)
    else none
  | _ => none

/-- What a text line is. -/
inductive ParsedLine where
  | blank
  | line (l : AsmLine)
  | malformed
deriving DecidableEq, Repr

/-- Read one text line (30_encoding.md rule R68). -/
def parseLine (cs : List Char) : ParsedLine :=
  match lex .between cs with
  | none => .malformed
  | some [] => .blank
  | some ts =>
    match parseTokens ts with
    | some l => .line l
    | none => .malformed

end Sys2Proof.Machine
end

