-- ==== Sys2Proof/Safety.lean ====
section
/-! DEFINITION. What counts as a safe run, in the terms the statements use. -/

namespace Sys2Proof.Machine

/-- The invariant of a block that has only taken commands and resets: which values each phase goes with, what the
unused positions hold, and what every carry state and sum bit of a running trial is. It gathers 10_state.md rules R22
to R29 and 41_carry_cycles.md rules R103, R104 and R111. -/
structure Block.TrialInv {W : Nat} (b : Block W) : Prop where
  /-- PHASE = IDLE holds exactly when N = 0 (10_state.md rule R22) -/
  idle_iff : b.phase = .idle ↔ b.n.val = 0
  /-- ERR can hold only NONE or CFG_WIDTH_RANGE (30_encoding.md rule R59) -/
  err_legal : b.err = .none ∨ b.err = .cfgWidthRange
  /-- an error is held only while no trial is loaded (60_exceptions.md rule R125) -/
  err_idle : b.phase ≠ .idle → b.err = .none
  /-- CYC is 0 in IDLE -/
  cyc_idle : b.phase = .idle → b.cyc = 0
  /-- CYC is 0 in INIT -/
  cyc_init : b.phase = .init → b.cyc = 0
  /-- carry completion is not reached in PROP -/
  cyc_prop : b.phase = .prop → 1 ≤ b.cyc ∧ b.cyc < completionCycle b.a b.b b.n.val
  /-- FINAL is entered in the cycle of carry completion -/
  cyc_final : b.phase = .final → b.cyc = completionCycle b.a b.b b.n.val
  /-- DONE is entered one cycle after it -/
  cyc_done : b.phase = .done → b.cyc = cycleCount b.a b.b b.n.val
  /-- the unused positions of a loaded trial hold 0, and `U` in the carry-state array -/
  unused : b.phase ≠ .idle → ∀ k : Fin W, b.n.val ≤ k.val →
    b.a[k] = false ∧ b.b[k] = false ∧ b.s[k] = false ∧ b.c[k] = .U
  /-- position `k` is determined from cycle `r(k)` on, and then holds the carry of binary addition -/
  carry : b.phase ≠ .idle → ∀ k : Fin W, k.val < b.n.val →
    b.c[k] = if resolutionCycle b.a b.b k.val ≤ b.cyc then carryOf (trueCarry b.a b.b k.val) else .U
  /-- the sum is 0 before the first cycle -/
  sum_init : b.phase = .init → b.s = 0
  /-- a sum bit uses its carry-in once that was determined at the start of the last cycle -/
  sum : b.phase ≠ .idle → 1 ≤ b.cyc → ∀ k : Fin W, k.val < b.n.val →
    b.s[k] = ((b.a[k] ^^ b.b[k]) ^^
      (decide (1 ≤ k.val) && decide (resolutionCycle b.a b.b (k.val - 1) < b.cyc) && trueCarry b.a b.b (k.val - 1)))

/-- The invariant every step keeps: the parameters are legal, the block has the trial invariant, and there is no fault
mark. -/
structure State.Inv (s : State) : Prop where
  /-- `W_MAX >= 1` and `GATE_DELAY >= 1` (00_scope.md rules R6, R7) -/
  params_valid : s.params.valid = true
  /-- the block's invariant -/
  trial : s.block.TrialInv
  /-- no fault mark (60_exceptions.md rule R127) -/
  unmarked : s.faultMark = none

/-- What one cycle of carry resolution must give, position by position: `x` is the end-of-cycle carry-state array of
`b` (41_carry_cycles.md rule R93). -/
structure ResolvesTo {W : Nat} (b : Block W) (x : Vector CarryState W) : Prop where
  /-- unused positions keep their entry -/
  unused : ∀ k : Fin W, b.n.val ≤ k.val → x[k] = b.c[k]
  /-- a resolved position never changes -/
  kept : ∀ k : Fin W, k.val < b.n.val → b.c[k] ≠ .U → x[k] = b.c[k]
  /-- GEN gives C1 -/
  gen : ∀ k : Fin W, k.val < b.n.val → b.c[k] = .U → b.a[k] = true → b.b[k] = true → x[k] = .C1
  /-- KILL gives C0 -/
  kill : ∀ k : Fin W, k.val < b.n.val → b.c[k] = .U → b.a[k] = false → b.b[k] = false → x[k] = .C0
  /-- PROP at position 0 copies the constant carry-in C0 -/
  low : ∀ k : Fin W, k.val < b.n.val → b.c[k] = .U → b.a[k] ≠ b.b[k] → k.val = 0 → x[k] = .C0
  /-- PROP above position 0 copies its lower neighbour's start-of-cycle carry state -/
  copied : ∀ k j : Fin W, k.val < b.n.val → b.c[k] = .U → b.a[k] ≠ b.b[k] → j.val + 1 = k.val → x[k] = b.c[j]

/-- What one cycle of sum update must give, position by position: `y` is the end-of-cycle sum of `b`, computed from the
start-of-cycle carry states, an undetermined carry-in counting as 0 (41_carry_cycles.md rules R91, R92, R94). -/
structure SumsTo {W : Nat} (b : Block W) (y : BitVec W) : Prop where
  /-- unused positions keep their bit -/
  unused : ∀ k : Fin W, b.n.val ≤ k.val → y[k] = b.s[k]
  /-- position 0 has carry-in C0 -/
  low : ∀ k : Fin W, k.val < b.n.val → k.val = 0 → y[k] = (b.a[k] ^^ b.b[k])
  /-- every other position has its lower neighbour's carry state as carry-in -/
  above : ∀ k j : Fin W, k.val < b.n.val → j.val + 1 = k.val → y[k] = ((b.a[k] ^^ b.b[k]) ^^ decide (b.c[j] = .C1))

/-- Every position below `n` is determined in `x` (10_state.md rule R30). -/
def Completed {W : Nat} (x : Vector CarryState W) (n : Nat) : Prop := ∀ k : Fin W, k.val < n → x[k] ≠ .U

/-- Every command with code `cmd` that is issued in phase `p` decodes to `i` of the command when RSV is 0, and is
refused RESERVED_BITS when it is not (30_encoding.md rules R61, R62). -/
def DecodesTo (cmd : BitVec 3) (p : Phase) (i : Command → Instr) : Prop :=
  ∀ c : Command, c.cmd = cmd →
    (c.rsv = 0#5 → decode p c = .ok (i c)) ∧ (c.rsv ≠ 0#5 → decode p c = .error .reservedBits)

/-- The states a host can reach in a machine of any legal parameters: `s` is reached from power-on by steps, the host
presenting anything between them. -/
inductive Reachable : State → Prop where
  | powerOn {p : Params} : p.valid = true → Reachable (State.powerOn p)
  | step {s t : State} (is : List HostInput) : Reachable s → step (s.withInputs is) = .next t → Reachable t

end Sys2Proof.Machine
end

