-- ==== Sys2Proof/Certificates/Slice0/Obligations.lean ====
section
/-! DEFINITION. The statements for the provers, rule by rule. `Obligations.<Name>` is settled by a theorem of that type.
Every statement about a state holds for a machine of any parameters, its capacity `s.params.wMax` among them, and every
law of 41_carry_cycles.md section 3 for a block of any capacity `W` (00_scope.md rules R6, R7). -/

open Sys2Proof Sys2Proof.Machine

/-! ### One step -/

/-- 20_memory.md rule R49 and 30_encoding.md rule R61: a command that the host presents, in a state that is not
faulted, runs the instruction it decodes to under the current phase, in the state with that command taken off the
stream. -/
def Obligations.StepRunsDecodedInstruction : Prop :=
  ∀ (s : State) (c : Command) (rest : List HostInput) (i : Instr),
    s.inputs = .command c :: rest → s.faultMark = none → decode s.block.phase c = .ok i →
    step s = exec i (s.withInputs rest)

/-- Commands are taken one at a time, in issue order, and at most one value is returned for each; with nothing presented
the state stays as it is, and a reset returns nothing. It formalises 20_memory.md section 4 and 60_exceptions.md section 4
over the model's own fields `inputs` and `returned` (log entries 3, 4, 5 and 7). -/
def Obligations.StepTakesInputsInOrder : Prop :=
  ∀ s t : State, step s = .next t →
    t.inputs = s.inputs.tail ∧
    (s.inputs = [] → t = s) ∧
    (∀ rest, s.inputs = .reset :: rest → t.returned = s.returned) ∧
    ∃ vs : List HostValue, vs.length ≤ 1 ∧ t.returned = s.returned ++ vs

/-- 70_reset_and_hazards.md rule R140: the reset input, asserted at any time, puts every register at its power-on
value and clears the fault mark. -/
def Obligations.PowerOnResetFromAnyState : Prop :=
  ∀ (s : State) (rest : List HostInput), s.inputs = .reset :: rest →
    ∃ t, step s = .next t ∧ t.params = s.params ∧
      t.block.a = 0 ∧ t.block.b = 0 ∧ t.block.n = 0 ∧ (∀ k : Fin t.params.wMax, t.block.c[k] = .U) ∧ t.block.s = 0 ∧
      t.block.cyc = 0 ∧ t.block.phase = .idle ∧ t.block.err = .none ∧ t.block.status = 0x0000#16 ∧
      t.faultMark = none

/-- No command clears a fault mark, and a marked state answers every command with the fault; only the reset input
clears it. It formalises 60_exceptions.md section 2; that the answer to a command is the marked fault, and that a state
with nothing presented keeps its mark, are the model's reading (log entry 6). -/
def Obligations.FaultMarkHoldsUntilReset : Prop :=
  ∀ (s : State) (f : Fault), s.faultMark = some f →
    (∀ c rest, s.inputs = .command c :: rest → step s = .fault f) ∧
    (s.inputs = [] → step s = .next s) ∧
    (∀ rest, s.inputs = .reset :: rest → ∃ t, step s = .next t ∧ t.faultMark = none)

/-- 20_memory.md rule R44 and 60_exceptions.md rule R126: in a state that is not faulted no step faults, and no step
sets the mark. -/
def Obligations.UnmarkedStepNeverFaults : Prop :=
  ∀ s : State, s.faultMark = none →
    (∀ f, step s ≠ .fault f) ∧ (∀ t, step s = .next t → t.faultMark = none)

/-- No step changes the parameters. It formalises 70_reset_and_hazards.md section 2, that they are fixed while the block
runs. -/
def Obligations.ParametersNeverChange : Prop := ∀ s t : State, step s = .next t → t.params = s.params

/-! ### Codes, decode and encode -/

/-- 30_encoding.md rule R55: the two-rail codes, `c1` the upper bit and `c0` the lower, and no other code decodes. -/
def Obligations.RailCodesOfCarryStates : Prop :=
  CarryState.U.rails = 0b00#2 ∧ CarryState.C0.rails = 0b01#2 ∧ CarryState.C1.rails = 0b10#2 ∧
  (∀ x : CarryState, CarryState.ofRails? x.rails = some x) ∧ CarryState.ofRails? 0b11#2 = none

/-- 30_encoding.md rules R56, R67: packed two-rail codes stand at bits `[2k+1:2k]`, decode back to the carry states they
came from, and decode to the fault ILLEGAL_RAIL exactly when some code is 0b11. -/
def Obligations.PackedCarryCodesDecode : Prop :=
  (∀ (rs : List (BitVec 2)) (k : Nat) (h : k < rs.length), packCarry rs / 4 ^ k % 4 = rs[k].toNat) ∧
  (∀ xs : List CarryState, unpackCarry xs.length (packCarry (xs.map CarryState.rails)) = .ok xs) ∧
  (∀ rs : List (BitVec 2), unpackCarry rs.length (packCarry rs) = .error .illegalRail ↔ 0b11#2 ∈ rs)

/-- A packed carry code written from outside the block, the spec's own example of where the illegal code can arise
(30_encoding.md section 1); the write itself, and that an index outside the capacity is BOUNDS whatever the code, are the
model's (log entry 6). An index outside the capacity marks BOUNDS; in range 0b11 marks ILLEGAL_RAIL and changes no
register, and a legal code replaces that one entry and nothing else. -/
def Obligations.HarnessCarryWriteMarksFaults : Prop :=
  ∀ (s : State) (k : Nat) (code : BitVec 2), s.faultMark = none →
    (s.params.wMax ≤ k → s.harnessWriteCarry k code = { s with faultMark := some .bounds }) ∧
    (k < s.params.wMax → code = 0b11#2 → s.harnessWriteCarry k code = { s with faultMark := some .illegalRail }) ∧
    (∀ x : CarryState, k < s.params.wMax → code = x.rails →
      ∃ v : Vector CarryState s.params.wMax, s.harnessWriteCarry k code = { s with block := { s.block with c := v } } ∧
        ∀ j : Fin s.params.wMax, v[j] = if j.val = k then x else s.block.c[j])

/-- 20_memory.md sections 1 and 3: indexed get, set and clear of a bit vector of any capacity: in range they read or
change that one bit, out of range they are the fault BOUNDS and never a wrapped access. That set writes 1 and clear 0 is log entry 16. -/
def Obligations.BitVectorAccessIsBoundsChecked : Prop :=
  ∀ (W : Nat) (x : BitVec W) (k : Nat),
    (W ≤ k → getBit x k = .error .bounds ∧ setBit x k = .error .bounds ∧ clearBit x k = .error .bounds) ∧
    (k < W → getBit x k = .ok (x.getLsbD k) ∧
      (∃ y, setBit x k = .ok y ∧ ∀ j : Nat, y.getLsbD j = if j = k then true else x.getLsbD j) ∧
      (∃ y, clearBit x k = .ok y ∧ ∀ j : Nat, y.getLsbD j = if j = k then false else x.getLsbD j))

/-- 30_encoding.md section 3: the fields of the 16-bit command word, and the word and its record determine each other. -/
def Obligations.CommandWordRoundTrip : Prop :=
  (∀ c : Command, c.packable = true →
    c.word.extractLsb' 0 3 = c.cmd ∧ c.word.extractLsb' 3 5 = c.rsv ∧ (c.word.extractLsb' 8 8).toNat = c.width) ∧
  (∀ (w : BitVec 16) (a b : Operand), (Command.ofWord w a b).word = w ∧ (Command.ofWord w a b).packable = true) ∧
  (∀ c : Command, c.packable = true → Command.ofWord c.word c.aBus c.bBus = c)

/-- 30_encoding.md rules R60, R61: every instruction, encoded and decoded in a phase that can select it, is given back
with every operand, as a record and, where its width fits the WIDTH field, through the 16-bit word. -/
def Obligations.DecodeOfEncodeIsIdentity : Prop :=
  ∀ (i : Instr) (p : Phase), i.fits p = true →
    decode p (encode i) = .ok i ∧
    (i.wellFormed = true → decode p (Command.ofWord (encode i).word (encode i).aBus (encode i).bBus) = .ok i)

/-- 30_encoding.md rules R60, R61: an instruction that a command decodes to fits the phase and encodes to the same
command code, with RSV 0; a START encodes to the very command. -/
def Obligations.EncodeOfDecodeKeepsCommand : Prop :=
  ∀ (p : Phase) (c : Command) (i : Instr), decode p c = .ok i →
    i.fits p = true ∧ (encode i).cmd = c.cmd ∧ (encode i).rsv = c.rsv ∧ (c.cmd = 0b001#3 → encode i = c)

/-- 30_encoding.md section 3 (an inference the spec draws: "every decode word whose PHASE bits are 0b000 to 0b100 falls in
exactly one row"): every decode word falls in exactly one row of the opcode table, the row of the instruction
it selects, but for the three STEP words with an impossible PHASE code, which fall in none; and the words that can
occur select what the decoder selects. -/
def Obligations.DecodeWordFallsInOneRow : Prop :=
  (∀ (dw : BitVec 6) (w : Nat) (a b : Operand) (i : Instr), decodeRow dw w a b = some i →
    (opcodeTable.filter fun r => r.takes dw).map OpcodeRow.mnemonic = [i.mnemonic]) ∧
  (∀ (dw : BitVec 6) (w : Nat) (a b : Operand), decodeRow dw w a b = none ↔
    (dw = 0b010101#6 ∨ dw = 0b010110#6 ∨ dw = 0b010111#6)) ∧
  (∀ dw : BitVec 6, (dw = 0b010101#6 ∨ dw = 0b010110#6 ∨ dw = 0b010111#6) →
    (opcodeTable.filter fun r => r.takes dw) = []) ∧
  (∀ (p : Phase) (c : Command), c.rsv = 0#5 →
    ∃ i, decode p c = .ok i ∧ decodeRow (decodeWord c.cmd p.code) c.width c.aBus c.bBus = some i)

/-- 95_test_vectors.md: words written out from the encodings decode to the commands they stand for: START 4 in IDLE,
STEP in INIT, PROP and DONE, READ_STATUS, and a word whose RSV is not 0. -/
def Obligations.WrittenWordsDecode : Prop :=
  decode .idle (Command.ofWord 0x0401#16 0x5 0xA) = .ok (.start 4 0x5 0xA) ∧
  decode .init (Command.ofWord 0x0002#16 0 0) = .ok .stepInit ∧
  decode .prop (Command.ofWord 0x0002#16 0 0) = .ok .stepProp ∧
  decode .done (Command.ofWord 0x0002#16 0 0) = .ok .stepDone ∧
  decode .final (Command.ofWord 0x0004#16 0 0) = .ok .readStatus ∧
  decode .idle (Command.ofWord 0x000A#16 0 0) = .error .reservedBits

/-! ### Host commands -/

/-- 40_host_operations.md rule R75: NOP decodes from CMD 0b000 in every phase and changes nothing. -/
def Obligations.NopChangesNothing : Prop :=
  (∀ p : Phase, DecodesTo 0b000#3 p fun _ => .nop) ∧ ∀ s : State, exec .nop s = .next s

/-- 40_host_operations.md rule R76: START, with its decode, its refusal, its error and the trial it loads. The state
beside the block is unchanged. -/
def Obligations.StartLoadsTrial : Prop :=
  (∀ p : Phase, DecodesTo 0b001#3 p fun c => .start c.width c.aBus c.bBus) ∧
  ∀ (s : State) (n : Nat) (a b : Operand),
    if s.block.phase = .init ∨ s.block.phase = .prop ∨ s.block.phase = .final then
      exec (.start n a b) s = .refused .busy
    else if n = 0 ∨ s.params.wMax < n then
      exec (.start n a b) s =
        .next { s with block := { s.block with err := .cfgWidthRange, n := 0, cyc := 0, phase := .idle } }
    else
      ∃ blk : Block s.params.wMax, exec (.start n a b) s = .next { s with block := blk } ∧
        blk.n.val = n ∧ blk.cyc = 0 ∧ blk.err = .none ∧ blk.phase = .init ∧
        ∀ k : Fin s.params.wMax,
          blk.a[k] = (if k.val < n then a.testBit k.val else false) ∧
          blk.b[k] = (if k.val < n then b.testBit k.val else false) ∧
          blk.c[k] = .U ∧ blk.s[k] = false

/-- 60_exceptions.md rules R121, R124: a START outside `[1, W_MAX]`, issued in IDLE or DONE, takes the one exception:
ERR, N, CYC and PHASE are written, A, B, C and S and everything beside the block keep their values. -/
def Obligations.WidthErrorEntersIdle : Prop :=
  ∀ (s : State) (n : Nat) (a b : Operand), s.block.phase = .idle ∨ s.block.phase = .done →
    n = 0 ∨ s.params.wMax < n →
    exec (.start n a b) s =
      .next { s with block := { s.block with err := .cfgWidthRange, n := 0, cyc := 0, phase := .idle } }

/-- 60_exceptions.md rule R125: a START that is not refused clears ERR where it is accepted and writes its own code
where it is rejected; no other instruction writes ERR, so there is no return from the error. -/
def Obligations.OnlyStartWritesErr : Prop :=
  ∀ (i : Instr) (s t : State), exec i s = .next t →
    ((∃ n a b, i = .start n a b ∧
        (if 1 ≤ n ∧ n ≤ s.params.wMax then t.block.err = .none else t.block.err = .cfgWidthRange)) ∨
      ((∀ n a b, i ≠ .start n a b) ∧ t.block.err = s.block.err))

/-- 20_memory.md rule R54 and 70_reset_and_hazards.md rule R141: what an accepted START leaves in the block depends on the
parameters, the width and the buses alone, not on the block before it. -/
def Obligations.AcceptedStartForgetsEarlierTrial : Prop :=
  ∀ (p : Params) (n : Nat) (a b : Operand), 1 ≤ n → n ≤ p.wMax →
    ∃ blk : Block p.wMax, ∀ (old : Block p.wMax) (mark : Option Fault) (is : List HostInput) (vs : List HostValue),
      trialRuns old.phase = false →
      exec (.start n a b) { params := p, block := old, faultMark := mark, inputs := is, returned := vs } =
        .next { params := p, block := blk, faultMark := mark, inputs := is, returned := vs }

/-- 40_host_operations.md rule R77: READ_RESULT, with its decode, its refusal outside DONE, and the record it returns
in DONE; no register changes. -/
def Obligations.ReadResultReturnsRecordInDone : Prop :=
  (∀ p : Phase, DecodesTo 0b011#3 p fun _ => .readResult) ∧
  ∀ s : State,
    (s.block.phase ≠ .done → exec .readResult s = .refused .notDone) ∧
    (s.block.phase = .done → ∃ r : ResultRecord,
      exec .readResult s = .next { s with returned := s.returned ++ [.result r] } ∧
      r.sum.length = s.block.n.val ∧
      (∀ k : Fin s.params.wMax, k.val < s.block.n.val → r.sum[k.val]? = some s.block.s[k]) ∧
      r.cycles = s.block.cyc ∧ r.delay = s.block.cyc * s.params.gateDelay)

/-- 30_encoding.md rule R66: the RESULT record of a block of any capacity, and its packed transport: the sum bus carries
the bits below `N` and 0 above, and both numbers are exact under the rule's bounds on `W_MAX` and GATE_DELAY, `cycles`
being at most `W_MAX + 1`. -/
def Obligations.ResultRecordAndItsPacking : Prop :=
  ∀ (W gd : Nat) (b : Block W),
    (b.resultRecord gd).sum.length = b.n.val ∧
    (∀ k : Fin W, k.val < b.n.val → (b.resultRecord gd).sum[k.val]? = some b.s[k]) ∧
    (b.resultRecord gd).cycles = b.cyc ∧ (b.resultRecord gd).delay = b.cyc * gd ∧
    (∀ k : Fin W, (b.packedResult gd).sum[k] = if k.val < b.n.val then b.s[k] else false) ∧
    (W ≤ 254 → gd ≤ 256 → b.cyc ≤ W + 1 →
      (b.packedResult gd).cycles.toNat = b.cyc ∧ (b.packedResult gd).delay.toNat = b.cyc * gd)

/-- 10_state.md rule R33 and 40_host_operations.md rule R78: READ_STATUS returns the status word, field by field; no
register changes. -/
def Obligations.ReadStatusReturnsFields : Prop :=
  (∀ p : Phase, DecodesTo 0b100#3 p fun _ => .readStatus) ∧
  ∀ s : State, ∃ w : BitVec 16,
    exec .readStatus s = .next { s with returned := s.returned ++ [.status w] } ∧
    w.extractLsb' 0 3 = s.block.phase.code ∧
    w.extractLsb' 3 3 = s.block.err.code ∧
    (w.getLsbD 6 = true ↔ Completed s.block.c s.block.n.val ∧ 1 ≤ s.block.n.val) ∧
    w.getLsbD 7 = false ∧
    (w.extractLsb' 8 8).toNat = s.block.cyc % 256

/-- 40_host_operations.md rule R79 and 30_encoding.md rule R67: READ_STATE returns the STATE record; no register
changes. -/
def Obligations.ReadStateReturnsRecord : Prop :=
  (∀ p : Phase, DecodesTo 0b101#3 p fun _ => .readState) ∧
  ∀ s : State, ∃ r : StateRecord,
    exec .readState s = .next { s with returned := s.returned ++ [.state r] } ∧
    r.n = s.block.n.val ∧ r.carry.length = s.block.n.val ∧ r.sum.length = s.block.n.val ∧
    (∀ k : Fin s.params.wMax, k.val < s.block.n.val →
      r.carry[k.val]? = some s.block.c[k].rails ∧
      packCarry r.carry / 2 ^ (2 * k.val) % 4 = s.block.c[k].rails.toNat ∧
      r.sum[k.val]? = some s.block.s[k]) ∧
    r.phase = s.block.phase.code ∧ r.cyc = s.block.cyc

/-- 40_host_operations.md rule R80: the two reserved codes are refused RESERVED_CMD in every phase, and a command of any
code whose RSV is not 0 is refused RESERVED_BITS by the step. -/
def Obligations.ReservedEncodingsAreRefused : Prop :=
  (∀ p : Phase, DecodesTo 0b110#3 p fun _ => .reserved110) ∧
  (∀ p : Phase, DecodesTo 0b111#3 p fun _ => .reserved111) ∧
  (∀ s : State, exec .reserved110 s = .refused .reservedCmd) ∧
  (∀ s : State, exec .reserved111 s = .refused .reservedCmd) ∧
  (∀ (s : State) (c : Command) (rest : List HostInput), s.inputs = .command c :: rest → s.faultMark = none →
    c.rsv ≠ 0#5 → step s = .refused .reservedBits)

/-- 20_memory.md rule R46: a read changes nothing but what the host has received, and a second identical read returns
the same value. -/
def Obligations.RepeatedReadsReturnSameValue : Prop :=
  ∀ (i : Instr) (s t : State), i = .readResult ∨ i = .readStatus ∨ i = .readState → exec i s = .next t →
    ∃ v, t = { s with returned := s.returned ++ [v] } ∧
      exec i t = .next { s with returned := s.returned ++ [v, v] }

/-- 60_exceptions.md rule R123: the order of checks for a command the host presents in a state that is not faulted, and
for STARTP in the host. -/
def Obligations.FirstFailingCheckDecides : Prop :=
  (∀ (s : State) (c : Command) (rest : List HostInput), s.inputs = .command c :: rest → s.faultMark = none →
    if c.rsv ≠ 0#5 then step s = .refused .reservedBits
    else if c.cmd = 0b110#3 ∨ c.cmd = 0b111#3 then step s = .refused .reservedCmd
    else if c.cmd = 0b001#3 ∧ (s.block.phase = .init ∨ s.block.phase = .prop ∨ s.block.phase = .final) then
      step s = .refused .busy
    else if c.cmd = 0b011#3 ∧ s.block.phase ≠ .done then step s = .refused .notDone
    else if c.cmd = 0b001#3 ∧ (c.width = 0 ∨ s.params.wMax < c.width) then
      step s = .next ((s.withInputs rest).raiseConfigError .cfgWidthRange)
    else ∃ t, step s = .next t) ∧
  (∀ (W : Nat) (pa pb : List Char) (e : ErrCode), fromPattern W pa.length pa = .error e →
    startpCommand W pa pb = .error e) ∧
  (∀ (W : Nat) (pa pb : List Char) (a : BitVec W) (e : ErrCode), fromPattern W pa.length pa = .ok a →
    fromPattern W pa.length pb = .error e → startpCommand W pa pb = .error e)

/-- 60_exceptions.md rule R126: NOP, the STEPs, READ_STATUS and READ_STATE always have a next state and never write
ERR. -/
def Obligations.CyclesNeverFail : Prop :=
  ∀ (i : Instr) (s : State),
    i = .nop ∨ i = .stepIdle ∨ i = .stepInit ∨ i = .stepProp ∨ i = .stepFinal ∨ i = .stepDone ∨ i = .readStatus ∨
      i = .readState →
    ∃ t, exec i s = .next t ∧ t.block.err = s.block.err

/-! ### STEP -/

/-- 41_carry_cycles.md rule R100: STEP in IDLE changes nothing and charges no cycle. -/
def Obligations.StepInIdleChangesNothing : Prop :=
  DecodesTo 0b010#3 .idle (fun _ => .stepIdle) ∧ ∀ s : State, exec .stepIdle s = .next s

/-- 41_carry_cycles.md rule R101: STEP in DONE changes nothing and charges no cycle. -/
def Obligations.StepInDoneChangesNothing : Prop :=
  DecodesTo 0b010#3 .done (fun _ => .stepDone) ∧ ∀ s : State, exec .stepDone s = .next s

/-- 41_carry_cycles.md rule R97: the initial cycle. Sum and carries are updated together from the start-of-cycle state,
one cycle is charged, the completion test on the end-of-cycle carries decides the phase, nothing else changes; a trial
of width 1, and one with no PROP position above position 0, go to FINAL. -/
def Obligations.StepInInitRunsInitialCycle : Prop :=
  DecodesTo 0b010#3 .init (fun _ => .stepInit) ∧
  ∀ s : State, ∃ blk : Block s.params.wMax,
    exec .stepInit s = .next { s with block := blk } ∧
    blk = { s.block with s := blk.s, c := blk.c, cyc := s.block.cyc + 1, phase := blk.phase } ∧
    SumsTo s.block blk.s ∧ ResolvesTo s.block blk.c ∧
    (Completed blk.c s.block.n.val → blk.phase = .final) ∧
    (¬ Completed blk.c s.block.n.val → blk.phase = .prop) ∧
    (s.block.n.val = 1 → blk.phase = .final) ∧
    ((∀ k : Fin s.params.wMax, 1 ≤ k.val → k.val < s.block.n.val → s.block.a[k] = s.block.b[k]) →
      blk.phase = .final)

/-- 41_carry_cycles.md section 2 (an inference the spec draws: "GEN gives C1, KILL gives C0, PROP at k = 0 gives C0, and
PROP at k >= 1 stays U"): what the initial cycle leaves at each position when every carry state is undetermined. -/
def Obligations.InitialCycleResultByKind : Prop :=
  ∀ s : State, (∀ k : Fin s.params.wMax, s.block.c[k] = .U) →
    ∃ blk : Block s.params.wMax, exec .stepInit s = .next { s with block := blk } ∧
      ∀ k : Fin s.params.wMax, k.val < s.block.n.val →
        blk.s[k] = (s.block.a[k] ^^ s.block.b[k]) ∧
        blk.c[k] =
          if s.block.a[k] = s.block.b[k] then carryOf s.block.a[k] else if k.val = 0 then .C0 else .U

/-- 41_carry_cycles.md rule R98: a propagation cycle. A PROP position whose lower neighbour was resolved at the start of
the cycle copies it; the rest as in the initial cycle. -/
def Obligations.StepInPropRunsPropagationCycle : Prop :=
  DecodesTo 0b010#3 .prop (fun _ => .stepProp) ∧
  ∀ s : State, ∃ blk : Block s.params.wMax,
    exec .stepProp s = .next { s with block := blk } ∧
    blk = { s.block with s := blk.s, c := blk.c, cyc := s.block.cyc + 1, phase := blk.phase } ∧
    SumsTo s.block blk.s ∧ ResolvesTo s.block blk.c ∧
    (Completed blk.c s.block.n.val → blk.phase = .final) ∧
    (¬ Completed blk.c s.block.n.val → blk.phase = .prop)

/-- 41_carry_cycles.md rule R99: the finalization cycle. The sum is updated, no carry changes, one cycle is charged, the
phase becomes DONE, nothing else changes. -/
def Obligations.StepInFinalFinishesSum : Prop :=
  DecodesTo 0b010#3 .final (fun _ => .stepFinal) ∧
  ∀ s : State, ∃ y : BitVec s.params.wMax,
    exec .stepFinal s =
      .next { s with block := { s.block with s := y, cyc := s.block.cyc + 1, phase := .done } } ∧
    SumsTo s.block y

/-- 10_state.md rule R24: no instruction but START changes a carry entry that has left `U`. -/
def Obligations.CarryStatesAreMonotone : Prop :=
  ∀ (i : Instr) (s t : State), (∀ n a b, i ≠ .start n a b) → exec i s = .next t →
    ∃ blk : Block s.params.wMax, t = { s with block := blk, returned := t.returned } ∧
      ∀ k : Fin s.params.wMax, s.block.c[k] ≠ .U → blk.c[k] = s.block.c[k]

/-- 40_host_operations.md rule R81: the operands and the width of a trial are written by no instruction but START, and a
START that has a next state was not issued while a trial ran. -/
def Obligations.RunningTrialKeepsItsOperands : Prop :=
  ∀ (i : Instr) (s t : State), exec i s = .next t →
    ∃ blk : Block s.params.wMax, t = { s with block := blk, returned := t.returned } ∧
      ((blk.a = s.block.a ∧ blk.b = s.block.b ∧ blk.n = s.block.n) ∨
        ((∃ n a b, i = .start n a b) ∧ trialRuns s.block.phase = false))

/-- 10_state.md rule R27: what each instruction does to CYC. -/
def Obligations.CycCountsCarryCycles : Prop :=
  ∀ (i : Instr) (s t : State), exec i s = .next t →
    t.block.cyc =
      match i with
      | .start _ _ _ => 0
      | .stepInit | .stepProp | .stepFinal => s.block.cyc + 1
      | .nop | .stepIdle | .stepDone | .readResult | .readStatus | .readState | .reserved110 | .reserved111 =>
        s.block.cyc

/-- 10_state.md rule R28: the transitions of PHASE: an instruction that fits the phase keeps it, or moves it along
INIT, PROP, FINAL, DONE, or is a START in IDLE or DONE that ends in INIT or IDLE. -/
def Obligations.PhaseFollowsTrialOrder : Prop :=
  ∀ (i : Instr) (s t : State), i.fits s.block.phase = true → exec i s = .next t →
    ((∃ n a b, i = .start n a b) →
      (s.block.phase = .idle ∨ s.block.phase = .done) ∧ (t.block.phase = .init ∨ t.block.phase = .idle)) ∧
    ((∀ n a b, i ≠ .start n a b) →
      t.block.phase = s.block.phase ∨
      (s.block.phase = .init ∧ (t.block.phase = .prop ∨ t.block.phase = .final)) ∨
      (s.block.phase = .prop ∧ t.block.phase = .final) ∨
      (s.block.phase = .final ∧ t.block.phase = .done))

/-! ### The invariant -/

/-- 10_state.md rules R22 to R29: the trial invariant holds at reset. -/
def Obligations.TrialInvariantAtReset : Prop := State.reset.Inv

/-- 10_state.md rules R22 to R29, 41_carry_cycles.md rules R103, R104, R111: every step from a state with the invariant
keeps it, whatever the host presents. -/
def Obligations.TrialInvariantKeptByStep : Prop :=
  ∀ s t : State, s.Inv → step s = .next t → t.Inv

/-- 60_exceptions.md rules R126, R127: in no state a host can reach, presenting anything between the steps, does a step
fault, and every such state has the invariant. -/
def Obligations.ReachableStatesNeverFault : Prop :=
  ∀ s : State, Reachable s → s.Inv ∧ ∀ (is : List HostInput) (f : Fault), step (s.withInputs is) ≠ .fault f

/-! ### Laws of the adder, for a block of any capacity -/

/-- 41_carry_cycles.md rule R102 (an inference the spec draws from R93, R97, R98): in a PROP cycle of a trial the lowest
undetermined position is above 0, is PROP, has a determined lower neighbour, and resolves. -/
def Obligations.PropCycleResolvesLowestUndetermined : Prop :=
  ∀ (W : Nat) (b : Block W), b.TrialInv → b.phase = .prop →
    ∃ k j : Fin W, k.val < b.n.val ∧ j.val + 1 = k.val ∧ b.c[k] = .U ∧ (∀ m : Fin W, m.val < k.val → b.c[m] ≠ .U) ∧
      b.a[k] ≠ b.b[k] ∧ b.advance.c[k] ≠ .U

/-- 41_carry_cycles.md rule R103 (an inference the spec draws): in every trial position `k` leaves `U` in the STEP that
sets CYC to `r(k)`, and not before; it then holds the carry of binary addition. -/
def Obligations.PositionResolvesInItsCycle : Prop :=
  ∀ (W : Nat) (old : Block W) (n : Fin (W + 1)) (a b : BitVec W) (t : Nat), 1 ≤ n.val →
    ∀ k : Fin W, k.val < n.val →
      (trialAt old n a b t).c[k] =
        if resolutionCycle a b k.val ≤ t then carryOf (trueCarry a b k.val) else .U

/-- 41_carry_cycles.md rule R104 (an inference the spec draws): with `L` the length of the longest run of PROP positions
inside `[1, N-1]`, a trial is in DONE after exactly `L + 2` STEPs, each of which charged one cycle, and not before. -/
def Obligations.TrialTakesLongestRunPlusTwo : Prop :=
  ∀ (W : Nat) (old : Block W) (n : Fin (W + 1)) (a b : BitVec W) (L : Nat), 1 ≤ n.val →
    (∃ i, IsPropRun a b n.val i L) → (∀ i len, IsPropRun a b n.val i len → len ≤ L) →
    (trialAt old n a b (L + 2)).phase = .done ∧ (trialAt old n a b (L + 2)).cyc = L + 2 ∧
    ∀ t, t < L + 2 → (trialAt old n a b t).phase ≠ .done ∧ (trialAt old n a b t).cyc = t

/-- 41_carry_cycles.md rule R105 (an inference the spec draws): `CYC <= N + 1` at every point of a trial, and
`2 <= cycles <= N + 1`. -/
def Obligations.CyclesAreBounded : Prop :=
  ∀ (W : Nat) (old : Block W) (n : Fin (W + 1)) (a b : BitVec W) (t : Nat), 1 ≤ n.val →
    (trialAt old n a b t).cyc ≤ n.val + 1 ∧
    ((trialAt old n a b t).phase = .done → 2 ≤ (trialAt old n a b t).cyc) ∧
    (n.val + 1 ≤ t → (trialAt old n a b t).phase = .done)

/-- 41_carry_cycles.md rule R106 (an inference the spec draws): a trial of width 1 takes 2 cycles and its sum is the XOR
of the operands. -/
def Obligations.WidthOneTakesTwoCycles : Prop :=
  ∀ (W gd : Nat) (old : Block W) (n : Fin (W + 1)) (a b : BitVec W), n.val = 1 →
    (trialAt old n a b 2).phase = .done ∧ (trialAt old n a b 2).cyc = 2 ∧
    (trialAt old n a b 2).delay gd = 2 * gd ∧
    (trialAt old n a b 2).s.getLsbD 0 = (a.getLsbD 0 ^^ b.getLsbD 0)

/-- 41_carry_cycles.md rule R107 (an inference the spec draws): a trial takes 2 cycles exactly when no position in
`[1, N-1]` is PROP, so in particular when the operands are equal below `N`. -/
def Obligations.TwoCyclesExactlyWithoutPropAboveZero : Prop :=
  ∀ (W : Nat) (old : Block W) (n : Fin (W + 1)) (a b : BitVec W), 1 ≤ n.val →
    ((trialAt old n a b 2).phase = .done ↔ ∀ k, 1 ≤ k → k < n.val → a.getLsbD k = b.getLsbD k)

/-- 41_carry_cycles.md rule R108 (an inference the spec draws): a trial takes `N + 1` cycles exactly when every position
in `[1, N-1]` is PROP. -/
def Obligations.WorstCaseExactlyAllProp : Prop :=
  ∀ (W : Nat) (old : Block W) (n : Fin (W + 1)) (a b : BitVec W), 1 ≤ n.val →
    ((trialAt old n a b n.val).phase ≠ .done ↔ ∀ k, 1 ≤ k → k < n.val → a.getLsbD k ≠ b.getLsbD k)

/-- 41_carry_cycles.md rule R109 (an inference the spec draws): in DONE the sum is `(A + B) mod 2^N`. -/
def Obligations.DoneSumIsModularAddition : Prop :=
  ∀ (W : Nat) (old : Block W) (n : Fin (W + 1)) (a b : BitVec W) (t : Nat), 1 ≤ n.val →
    (trialAt old n a b t).phase = .done →
    valOf n.val (trialAt old n a b t).s = (valOf n.val a + valOf n.val b) % 2 ^ n.val

/-- 41_carry_cycles.md rule R110 (an inference the spec draws): in DONE the top carry state is `C1` exactly when the
addition carries out. -/
def Obligations.TopCarryStateIsCarryOut : Prop :=
  ∀ (W : Nat) (old : Block W) (n : Fin (W + 1)) (a b : BitVec W) (t : Nat) (k : Fin W), k.val + 1 = n.val →
    (trialAt old n a b t).phase = .done →
    ((trialAt old n a b t).c[k] = .C1 ↔ 2 ^ n.val ≤ valOf n.val a + valOf n.val b)

/-- 41_carry_cycles.md rule R111 (an inference the spec draws): a provisional sum bit is computed from the carry state at
the start of its cycle, so it is `A ^ B` until the cycle after its carry-in resolves to `C1`, and its final value from
that cycle on: it changes at most once. -/
def Obligations.SumBitChangesOnceAfterCarryIn : Prop :=
  ∀ (W : Nat) (old : Block W) (n : Fin (W + 1)) (a b : BitVec W) (t : Nat), 1 ≤ n.val →
    1 ≤ t → t ≤ cycleCount a b n.val →
    ∀ k : Fin W, k.val < n.val →
      (trialAt old n a b t).s[k] = ((a[k] ^^ b[k]) ^^ pv (cin k (trialAt old n a b (t - 1)).c)) ∧
      (trialAt old n a b t).s[k] =
        ((a[k] ^^ b[k]) ^^
          (decide (1 ≤ k.val ∧ resolutionCycle a b (k.val - 1) < t) && trueCarry a b (k.val - 1)))

/-- 41_carry_cycles.md rule R112: the delay of a finished trial is `cycles * GATE_DELAY`; with this hardware's
GATE_DELAY it is twice the cycles and lies between 4 and `2N + 2`. -/
def Obligations.DelayIsTwiceTheCycles : Prop :=
  ∀ (W : Nat) (old : Block W) (n : Fin (W + 1)) (a b : BitVec W) (t : Nat), 1 ≤ n.val →
    (trialAt old n a b t).phase = .done →
    (trialAt old n a b t).delay Config.gateDelay = 2 * (trialAt old n a b t).cyc ∧
    4 ≤ (trialAt old n a b t).delay Config.gateDelay ∧
    (trialAt old n a b t).delay Config.gateDelay ≤ 2 * n.val + 2

/-- 41_carry_cycles.md rule R114 (an inference the spec draws): swapping the operands changes neither the sum, the carry
states, the cycle count nor the phase at any point of a trial. -/
def Obligations.SwappedOperandsGiveSameTrial : Prop :=
  ∀ (W : Nat) (old : Block W) (n : Fin (W + 1)) (a b : BitVec W) (t : Nat),
    (trialAt old n a b t).s = (trialAt old n b a t).s ∧ (trialAt old n a b t).c = (trialAt old n b a t).c ∧
    (trialAt old n a b t).cyc = (trialAt old n b a t).cyc ∧ (trialAt old n a b t).phase = (trialAt old n b a t).phase

/-- 41_carry_cycles.md rule R114 (an inference the spec draws): adding zero gives the other operand. -/
def Obligations.AddingZeroGivesOperand : Prop :=
  ∀ (W : Nat) (old : Block W) (n : Fin (W + 1)) (a : BitVec W) (t : Nat), 1 ≤ n.val →
    (trialAt old n a 0 t).phase = .done →
    ∀ k : Fin W, k.val < n.val → (trialAt old n a 0 t).s[k] = a[k]

/-! ### The host's side -/

/-- 30_encoding.md rule R63: `fromPattern`: the length check before the character check, then character `i` gives
position `i`, and 0 above, for every width up to the capacity (a longer pattern is log entry 8). -/
def Obligations.FromPatternReadsLsbFirst : Prop :=
  ∀ (W n : Nat) (p : List Char),
    if p.length ≠ n then fromPattern W n p = .error .cfgPatternLength
    else if ¬ ∀ ch ∈ p, ch = '0' ∨ ch = '1' then fromPattern W n p = .error .cfgPatternChar
    else n ≤ W → ∃ v, fromPattern W n p = .ok v ∧ ∀ k : Fin W, v[k] = decide (p[k.val]? = some '1')

/-- 30_encoding.md rule R69 (an inference the spec draws): in STARTP the first pattern sets the width; a second of another
length is a length error, whatever its characters; two empty patterns give a START of width 0, which the block rejects.
Where the first pattern is longer than the capacity the first two clauses rest on the model's choice that such a pattern
parses (log entry 8). -/
def Obligations.StartpWidthIsFirstPatternLength : Prop :=
  (∀ (W : Nat) (pa pb : List Char) (c : Command), startpCommand W pa pb = .ok c →
    c.cmd = 0b001#3 ∧ c.rsv = 0#5 ∧ c.width = pa.length) ∧
  (∀ (W : Nat) (pa pb : List Char), (∀ ch ∈ pa, ch = '0' ∨ ch = '1') → pb.length ≠ pa.length →
    startpCommand W pa pb = .error .cfgPatternLength) ∧
  ∀ W : Nat, ∃ c, startpCommand W [] [] = .ok c ∧
    ∀ s : State, s.faultMark = none → trialRuns s.block.phase = false →
      s.issue c = .next (s.raiseConfigError .cfgWidthRange)

/-- 40_host_operations.md rule R82 (an inference the spec draws): from every state with the invariant, STEP* ends, with no
fault and no refusal, where no trial runs; a trial it starts in INIT is then in DONE. That the values received are
unchanged, the polled ones not being recorded, and that the poll comes before each STEP are the model's choice (log entry
15). -/
def Obligations.StepStarEndsTrial : Prop :=
  ∀ s : State, s.Inv → ∃ t, s.perform .stepStar = .next t ∧ trialRuns t.block.phase = false ∧
    t.params = s.params ∧ t.inputs = s.inputs ∧ t.returned = s.returned ∧
    (s.block.phase = .init → t.block.phase = .done ∧ t.block.cyc = cycleCount s.block.a s.block.b s.block.n.val)

/-- 41_carry_cycles.md rule R113 (an inference the spec draws): RUN is the source's single call. From every state that is
not faulted and runs no trial, `RUN n, a, b` ends and returns to the host exactly one value, the RESULT record of `a + b`
modulo `2^n`, with `cycles` two more than the longest PROP run and `delay` its multiple. That it is exactly one value, those
STEP* polls not being recorded, is the model's choice (log entry 15). -/
def Obligations.RunReturnsSimulationResult : Prop :=
  ∀ (s : State) (n a b : Nat), s.faultMark = none → trialRuns s.block.phase = false → 1 ≤ n → n ≤ s.params.wMax →
    ∃ acts t r, (AsmLine.run n a b).expand s.params.wMax = .ok acts ∧ State.performAll acts s = .next t ∧
      t.params = s.params ∧ t.returned = s.returned ++ [.result r] ∧ t.inputs = s.inputs ∧ t.block.phase = .done ∧
      r.sum.length = n ∧ valOfBits r.sum = (a + b) % 2 ^ n ∧
      r.cycles = cycleCount (busOfNat s.params.wMax a) (busOfNat s.params.wMax b) n ∧
      r.delay = r.cycles * s.params.gateDelay
end

