-- ==== Sys2Proof/Laws/State.lean ====
section
/-! SUPPORT. One lemma per field per update, each true by unfolding the one update. -/

namespace Sys2Proof.Machine

@[simp] theorem State.withBlock_params (s : State) (b : Block s.params.wMax) : (s.withBlock b).params = s.params := rfl

@[simp] theorem State.give_params (s : State) (v : HostValue) : (s.give v).params = s.params := rfl

@[simp] theorem State.withInputs_params (s : State) (is : List HostInput) : (s.withInputs is).params = s.params := rfl

@[simp] theorem State.present_params (s : State) (c : Command) : (s.present c).params = s.params := rfl

@[simp] theorem State.withoutFault_params (s : State) : s.withoutFault.params = s.params := rfl

@[simp] theorem State.powerOnReset_params (s : State) : s.powerOnReset.params = s.params := rfl

@[simp] theorem State.raiseConfigError_params (code : ErrCode) (s : State) :
    (s.raiseConfigError code).params = s.params := rfl

@[simp] theorem State.markFault_params (f : Fault) (s : State) : (s.markFault f).params = s.params := rfl

@[simp] theorem State.powerOn_params (p : Params) : (State.powerOn p).params = p := rfl

@[simp] theorem State.powerOn_block (p : Params) : (State.powerOn p).block = Block.powerOn p.wMax := rfl

@[simp] theorem State.powerOn_faultMark (p : Params) : (State.powerOn p).faultMark = none := rfl

@[simp] theorem State.powerOn_inputs (p : Params) : (State.powerOn p).inputs = [] := rfl

@[simp] theorem State.powerOn_returned (p : Params) : (State.powerOn p).returned = [] := rfl

@[simp] theorem State.withBlock_block (s : State) (b : Block s.params.wMax) :
    (s.withBlock b).block = b := rfl

@[simp] theorem State.withBlock_faultMark (s : State) (b : Block s.params.wMax) :
    (s.withBlock b).faultMark = s.faultMark := rfl

@[simp] theorem State.withBlock_inputs (s : State) (b : Block s.params.wMax) :
    (s.withBlock b).inputs = s.inputs := rfl

@[simp] theorem State.withBlock_returned (s : State) (b : Block s.params.wMax) :
    (s.withBlock b).returned = s.returned := rfl

@[simp] theorem State.give_block (s : State) (v : HostValue) :
    (s.give v).block = s.block := rfl

@[simp] theorem State.give_faultMark (s : State) (v : HostValue) :
    (s.give v).faultMark = s.faultMark := rfl

@[simp] theorem State.give_inputs (s : State) (v : HostValue) :
    (s.give v).inputs = s.inputs := rfl

@[simp] theorem State.give_returned (s : State) (v : HostValue) :
    (s.give v).returned = s.returned ++ [v] := rfl

@[simp] theorem State.withInputs_block (s : State) (is : List HostInput) :
    (s.withInputs is).block = s.block := rfl

@[simp] theorem State.withInputs_faultMark (s : State) (is : List HostInput) :
    (s.withInputs is).faultMark = s.faultMark := rfl

@[simp] theorem State.withInputs_inputs (s : State) (is : List HostInput) :
    (s.withInputs is).inputs = is := rfl

@[simp] theorem State.withInputs_returned (s : State) (is : List HostInput) :
    (s.withInputs is).returned = s.returned := rfl

@[simp] theorem State.withoutFault_block (s : State) :
    s.withoutFault.block = s.block := rfl

@[simp] theorem State.withoutFault_faultMark (s : State) :
    s.withoutFault.faultMark = none := rfl

@[simp] theorem State.withoutFault_inputs (s : State) :
    s.withoutFault.inputs = s.inputs := rfl

@[simp] theorem State.withoutFault_returned (s : State) :
    s.withoutFault.returned = s.returned := rfl

@[simp] theorem State.powerOnReset_block (s : State) :
    s.powerOnReset.block = Block.powerOn s.params.wMax := rfl

@[simp] theorem State.powerOnReset_faultMark (s : State) :
    s.powerOnReset.faultMark = none := rfl

@[simp] theorem State.powerOnReset_inputs (s : State) :
    s.powerOnReset.inputs = s.inputs := rfl

@[simp] theorem State.powerOnReset_returned (s : State) :
    s.powerOnReset.returned = s.returned := rfl

@[simp] theorem State.present_block (s : State) (c : Command) :
    (s.present c).block = s.block := rfl

@[simp] theorem State.present_faultMark (s : State) (c : Command) :
    (s.present c).faultMark = s.faultMark := rfl

@[simp] theorem State.present_inputs (s : State) (c : Command) :
    (s.present c).inputs = .command c :: s.inputs := rfl

@[simp] theorem State.present_returned (s : State) (c : Command) :
    (s.present c).returned = s.returned := rfl

@[simp] theorem State.raiseConfigError_block (code : ErrCode) (s : State) :
    (s.raiseConfigError code).block = s.block.rejectTrial code := rfl

@[simp] theorem State.raiseConfigError_faultMark (code : ErrCode) (s : State) :
    (s.raiseConfigError code).faultMark = s.faultMark := rfl

@[simp] theorem State.raiseConfigError_inputs (code : ErrCode) (s : State) :
    (s.raiseConfigError code).inputs = s.inputs := rfl

@[simp] theorem State.raiseConfigError_returned (code : ErrCode) (s : State) :
    (s.raiseConfigError code).returned = s.returned := rfl

@[simp] theorem State.markFault_block (f : Fault) (s : State) : (s.markFault f).block = s.block := rfl

@[simp] theorem State.markFault_inputs (f : Fault) (s : State) : (s.markFault f).inputs = s.inputs := rfl

@[simp] theorem State.markFault_returned (f : Fault) (s : State) : (s.markFault f).returned = s.returned := rfl

@[simp] theorem Block.load_a {W : Nat} (old : Block W) (n : Fin (W + 1)) (x y : BitVec W) :
    (old.load n x y).a = loadBus n x := rfl

@[simp] theorem Block.load_b {W : Nat} (old : Block W) (n : Fin (W + 1)) (x y : BitVec W) :
    (old.load n x y).b = loadBus n y := rfl

@[simp] theorem Block.load_n {W : Nat} (old : Block W) (n : Fin (W + 1)) (x y : BitVec W) :
    (old.load n x y).n = n := rfl

@[simp] theorem Block.load_c {W : Nat} (old : Block W) (n : Fin (W + 1)) (x y : BitVec W) :
    (old.load n x y).c = Vector.replicate W .U := rfl

@[simp] theorem Block.load_s {W : Nat} (old : Block W) (n : Fin (W + 1)) (x y : BitVec W) :
    (old.load n x y).s = 0 := rfl

@[simp] theorem Block.load_cyc {W : Nat} (old : Block W) (n : Fin (W + 1)) (x y : BitVec W) :
    (old.load n x y).cyc = 0 := rfl

@[simp] theorem Block.load_phase {W : Nat} (old : Block W) (n : Fin (W + 1)) (x y : BitVec W) :
    (old.load n x y).phase = .init := rfl

@[simp] theorem Block.load_err {W : Nat} (old : Block W) (n : Fin (W + 1)) (x y : BitVec W) :
    (old.load n x y).err = .none := rfl

@[simp] theorem Block.carryCycle_a {W : Nat} (b : Block W) :
    b.carryCycle.a = b.a := rfl

@[simp] theorem Block.carryCycle_b {W : Nat} (b : Block W) :
    b.carryCycle.b = b.b := rfl

@[simp] theorem Block.carryCycle_n {W : Nat} (b : Block W) :
    b.carryCycle.n = b.n := rfl

@[simp] theorem Block.carryCycle_c {W : Nat} (b : Block W) :
    b.carryCycle.c = b.resolve := rfl

@[simp] theorem Block.carryCycle_s {W : Nat} (b : Block W) :
    b.carryCycle.s = b.sumUpdate := rfl

@[simp] theorem Block.carryCycle_cyc {W : Nat} (b : Block W) :
    b.carryCycle.cyc = b.cyc + 1 := rfl

@[simp] theorem Block.carryCycle_phase {W : Nat} (b : Block W) :
    b.carryCycle.phase = if complete b.resolve b.n then .final else .prop := rfl

@[simp] theorem Block.carryCycle_err {W : Nat} (b : Block W) :
    b.carryCycle.err = b.err := rfl

@[simp] theorem Block.finalCycle_a {W : Nat} (b : Block W) : b.finalCycle.a = b.a := rfl

@[simp] theorem Block.finalCycle_b {W : Nat} (b : Block W) : b.finalCycle.b = b.b := rfl

@[simp] theorem Block.finalCycle_n {W : Nat} (b : Block W) : b.finalCycle.n = b.n := rfl

@[simp] theorem Block.finalCycle_c {W : Nat} (b : Block W) : b.finalCycle.c = b.c := rfl

@[simp] theorem Block.finalCycle_s {W : Nat} (b : Block W) : b.finalCycle.s = b.sumUpdate := rfl

@[simp] theorem Block.finalCycle_cyc {W : Nat} (b : Block W) : b.finalCycle.cyc = b.cyc + 1 := rfl

@[simp] theorem Block.finalCycle_phase {W : Nat} (b : Block W) : b.finalCycle.phase = .done := rfl

@[simp] theorem Block.finalCycle_err {W : Nat} (b : Block W) : b.finalCycle.err = b.err := rfl

@[simp] theorem Block.rejectTrial_a {W : Nat} (code : ErrCode) (b : Block W) :
    (b.rejectTrial code).a = b.a := rfl

@[simp] theorem Block.rejectTrial_b {W : Nat} (code : ErrCode) (b : Block W) :
    (b.rejectTrial code).b = b.b := rfl

@[simp] theorem Block.rejectTrial_n {W : Nat} (code : ErrCode) (b : Block W) :
    (b.rejectTrial code).n = 0 := rfl

@[simp] theorem Block.rejectTrial_c {W : Nat} (code : ErrCode) (b : Block W) :
    (b.rejectTrial code).c = b.c := rfl

@[simp] theorem Block.rejectTrial_s {W : Nat} (code : ErrCode) (b : Block W) :
    (b.rejectTrial code).s = b.s := rfl

@[simp] theorem Block.rejectTrial_cyc {W : Nat} (code : ErrCode) (b : Block W) :
    (b.rejectTrial code).cyc = 0 := rfl

@[simp] theorem Block.rejectTrial_phase {W : Nat} (code : ErrCode) (b : Block W) :
    (b.rejectTrial code).phase = .idle := rfl

@[simp] theorem Block.rejectTrial_err {W : Nat} (code : ErrCode) (b : Block W) :
    (b.rejectTrial code).err = code := rfl

@[simp] theorem Block.powerOn_a (W : Nat) : (Block.powerOn W).a = 0 := rfl

@[simp] theorem Block.powerOn_b (W : Nat) : (Block.powerOn W).b = 0 := rfl

@[simp] theorem Block.powerOn_n (W : Nat) : (Block.powerOn W).n = 0 := rfl

@[simp] theorem Block.powerOn_c (W : Nat) : (Block.powerOn W).c = Vector.replicate W .U := rfl

@[simp] theorem Block.powerOn_s (W : Nat) : (Block.powerOn W).s = 0 := rfl

@[simp] theorem Block.powerOn_cyc (W : Nat) : (Block.powerOn W).cyc = 0 := rfl

@[simp] theorem Block.powerOn_phase (W : Nat) : (Block.powerOn W).phase = .idle := rfl

@[simp] theorem Block.powerOn_err (W : Nat) : (Block.powerOn W).err = .none := rfl

end Sys2Proof.Machine
end

