-- ==== Sys2Proof/Laws/Encoding.lean ====
section
/-! SUPPORT. Which bit of a packed word is which bit of its fields. -/

namespace Sys2Proof

/-- The bits of the command word (30_encoding.md rule R60). -/
theorem Command.word_getLsbD (c : Command) (k : Nat) :
    c.word.getLsbD k =
      if k < 3 then c.cmd.getLsbD k
      else if k < 8 then c.rsv.getLsbD (k - 3)
      else (BitVec.ofNat 8 c.width).getLsbD (k - 8) := by
  show BitVec.getLsbD (w := 8 + 5 + 3) (BitVec.ofNat 8 c.width ++ c.rsv ++ c.cmd) k = _
  rw [BitVec.getLsbD_append, BitVec.getLsbD_append]
  by_cases h1 : k < 3
  · simp [h1]
  · by_cases h2 : k < 8
    · have : k - 3 < 5 := by omega
      simp [h1, h2, this]
    · have h3 : ¬ (k - 3 < 5) := by omega
      have h4 : k - 3 - 5 = k - 8 := by omega
      simp [h1, h2, h3, h4]

namespace Machine

/-- The bits of the status word (10_state.md rule R33). -/
theorem Block.status_getLsbD {W : Nat} (b : Block W) (k : Nat) :
    b.status.getLsbD k =
      if k < 3 then b.phase.code.getLsbD k
      else if k < 6 then b.err.code.getLsbD (k - 3)
      else if k = 6 then b.completeBit
      else if k = 7 then false
      else (BitVec.ofNat 8 b.cyc).getLsbD (k - 8) := by
  show BitVec.getLsbD (w := 8 + 1 + 1 + 3 + 3)
    (BitVec.ofNat 8 b.cyc ++ 0#1 ++ BitVec.ofBool b.completeBit ++ b.err.code ++ b.phase.code) k = _
  rw [BitVec.getLsbD_append, BitVec.getLsbD_append, BitVec.getLsbD_append, BitVec.getLsbD_append]
  by_cases h1 : k < 3
  · simp [h1]
  by_cases h2 : k < 6
  · have : k - 3 < 3 := by omega
    simp [h1, h2, this]
  have h3 : ¬ (k - 3 < 3) := by omega
  by_cases h4 : k = 6
  · subst h4; cases b.completeBit <;> simp
  have h5 : ¬ (k - 3 - 3 < 1) := by omega
  by_cases h6 : k = 7
  · subst h6; simp
  have h7 : ¬ (k - 3 - 3 - 1 < 1) := by omega
  have h8 : k - 3 - 3 - 1 - 1 = k - 8 := by omega
  simp [h1, h2, h3, h4, h5, h6, h7, h8]

end Machine

end Sys2Proof
end

