-- ==== Sys2Proof/Laws/Ops.lean ====
section
/-! SUPPORT. One lemma per shared operation that says once what it gives; the provers cite these instead of unfolding
the operation. -/

namespace Sys2Proof.Machine

/-! ### Bit vectors built position by position -/

theorem bitsOf_getElem (W : Nat) (f : Fin W → Bool) (k : Nat) (h : k < W) : (bitsOf W f)[k] = f ⟨k, h⟩ := by
  induction W with
  | zero => exact absurd h (Nat.not_lt_zero k)
  | succ w ih =>
    simp only [bitsOf, BitVec.getElem_cons]
    split
    · next hk => subst hk; rfl
    · next hk => exact ih (fun j => f j.castSucc) (by omega)

@[simp] theorem bitsOf_getElem_fin (W : Nat) (f : Fin W → Bool) (k : Fin W) : (bitsOf W f)[k] = f k :=
  bitsOf_getElem W f k.val k.isLt

theorem loadBus_getElem {W : Nat} (n : Fin (W + 1)) (bus : BitVec W) (k : Fin W) :
    (loadBus n bus)[k] = if k.val < n.val then bus[k] else false := bitsOf_getElem_fin W _ k

theorem busOfNat_getElem (W v : Nat) (k : Fin W) : (busOfNat W v)[k] = v.testBit k.val := bitsOf_getElem_fin W _ k

theorem getBit_of_lt {W : Nat} (x : BitVec W) (k : Fin W) : getBit x k.val = .ok x[k] := by simp [getBit]

theorem getBit_of_ge {W : Nat} (x : BitVec W) (k : Nat) (h : W ≤ k) : getBit x k = .error .bounds := by
  simp [getBit, Nat.not_lt.mpr h]

theorem writeBit_of_ge {W : Nat} (x : BitVec W) (k : Nat) (v : Bool) (h : W ≤ k) : writeBit x k v = .error .bounds := by
  simp [writeBit, Nat.not_lt.mpr h]

/-- A write gives the new bit at its own position and leaves every other. -/
theorem writeBit_getElem {W : Nat} {x y : BitVec W} {k : Nat} {v : Bool} (h : writeBit x k v = .ok y) (j : Fin W) :
    y[j] = if j.val = k then v else x[j] := by
  unfold writeBit at h
  split at h
  · cases h; exact bitsOf_getElem_fin W _ j
  · cases h

/-! ### The cycle functions -/

theorem kind_gen {W : Nat} {b : Block W} {k : Fin W} (ha : b.a[k] = true) (hb : b.b[k] = true) : b.kind k = .gen := by
  simp only [Block.kind, ha, hb]

theorem kind_kill {W : Nat} {b : Block W} {k : Fin W} (ha : b.a[k] = false) (hb : b.b[k] = false) :
    b.kind k = .kill := by
  simp only [Block.kind, ha, hb]

theorem kind_prop {W : Nat} {b : Block W} {k : Fin W} (h : b.a[k] ≠ b.b[k]) : b.kind k = .prop := by
  unfold Block.kind
  cases ha : b.a[k] <;> cases hb : b.b[k] <;> simp_all

theorem cin_zero {W : Nat} {k : Fin W} (x : Vector CarryState W) (h : k.val = 0) : cin k x = .C0 := by simp [cin, h]

theorem cin_succ {W : Nat} {k j : Fin W} (x : Vector CarryState W) (h : j.val + 1 = k.val) : cin k x = x[j] := by
  have hj : k.val - 1 = j.val := by omega
  have hk : k.val ≠ 0 := by omega
  simp [cin, hk, hj]

theorem pv_eq (x : CarryState) : pv x = decide (x = .C1) := by cases x <;> rfl

theorem complete_iff {W : Nat} (x : Vector CarryState W) (n : Fin (W + 1)) :
    complete x n = true ↔ Completed x n.val := by simp [complete, Completed]

theorem resolve_getElem {W : Nat} (b : Block W) (k : Fin W) :
    b.resolve[k] =
      if b.n.val ≤ k.val then b.c[k]
      else match b.c[k] with
        | .C0 => .C0
        | .C1 => .C1
        | .U =>
          match b.kind k with
          | .gen => .C1
          | .kill => .C0
          | .prop => cin k b.c :=
  Vector.getElem_ofFn k.isLt

theorem sumUpdate_getElem {W : Nat} (b : Block W) (k : Fin W) :
    b.sumUpdate[k] = if k.val < b.n.val then (b.a[k] ^^ b.b[k]) ^^ pv (cin k b.c) else b.s[k] :=
  bitsOf_getElem_fin W _ k

/-- A resolved entry keeps its value in a cycle. -/
theorem resolve_kept {W : Nat} {b : Block W} {k : Fin W} (h : b.c[k] ≠ .U) : b.resolve[k] = b.c[k] := by
  rw [resolve_getElem]
  split
  · rfl
  · cases hc : b.c[k] <;> simp_all

/-- The sum update gives what 41_carry_cycles.md rule R94 says, position by position. -/
theorem sumUpdate_sumsTo {W : Nat} (b : Block W) : SumsTo b b.sumUpdate where
  unused k h := by rw [sumUpdate_getElem]; simp [Nat.not_lt.2 h]
  low k h h0 := by rw [sumUpdate_getElem]; simp [h, cin_zero _ h0, pv]
  above k j h hj := by rw [sumUpdate_getElem]; simp [h, cin_succ _ hj, pv_eq]

/-- Carry resolution gives what 41_carry_cycles.md rule R93 says, position by position. -/
theorem resolve_resolvesTo {W : Nat} (b : Block W) : ResolvesTo b b.resolve where
  unused k h := by rw [resolve_getElem]; simp [h]
  kept k _ h := resolve_kept h
  gen k h hc ha hb := by rw [resolve_getElem]; simp [Nat.not_le.2 h, hc, kind_gen ha hb]
  kill k h hc ha hb := by rw [resolve_getElem]; simp [Nat.not_le.2 h, hc, kind_kill ha hb]
  low k h hc hd h0 := by rw [resolve_getElem]; simp [Nat.not_le.2 h, hc, kind_prop hd, cin_zero _ h0]
  copied k j h hc hd hj := by rw [resolve_getElem]; simp [Nat.not_le.2 h, hc, kind_prop hd, cin_succ _ hj]

theorem acceptedWidth_some {W n : Nat} (h1 : 1 ≤ n) (h2 : n ≤ W) :
    acceptedWidth W n = some ⟨n, Nat.lt_succ_of_le h2⟩ := by simp [acceptedWidth, h1, h2]

theorem acceptedWidth_none {W n : Nat} (h : n = 0 ∨ W < n) : acceptedWidth W n = none := by
  have : ¬ (1 ≤ n ∧ n ≤ W) := by omega
  simp [acceptedWidth, this]

/-! ### What each meaning can answer -/

/-- All a START can do. -/
theorem execStart_cases (width : Nat) (a b : Operand) (s : State) :
    (trialRuns s.block.phase = true ∧ execStart width a b s = .refused .busy) ∨
    (trialRuns s.block.phase = false ∧ (width = 0 ∨ s.params.wMax < width) ∧
      execStart width a b s = .next (s.raiseConfigError .cfgWidthRange)) ∨
    (trialRuns s.block.phase = false ∧ ∃ h : 1 ≤ width ∧ width ≤ s.params.wMax,
      execStart width a b s = .next (s.withBlock (s.block.load ⟨width, Nat.lt_succ_of_le h.2⟩ (busOfNat s.params.wMax a)
          (busOfNat s.params.wMax b)))) := by
  cases hp : trialRuns s.block.phase with
  | true => exact .inl ⟨rfl, by simp [execStart, hp]⟩
  | false =>
    by_cases h : 1 ≤ width ∧ width ≤ s.params.wMax
    · exact .inr (.inr ⟨rfl, h, by simp [execStart, hp, acceptedWidth_some h.1 h.2]⟩)
    · have hw : width = 0 ∨ s.params.wMax < width := by omega
      exact .inr (.inl ⟨rfl, hw, by simp [execStart, hp, acceptedWidth_none hw]⟩)

/-- All a READ_RESULT can do. -/
theorem execReadResult_cases (s : State) :
    (s.block.phase = .done ∧
      execReadResult s = .next (s.give (.result (s.block.resultRecord s.params.gateDelay)))) ∨
    (s.block.phase ≠ .done ∧ execReadResult s = .refused .notDone) := by
  by_cases h : s.block.phase = .done
  · exact .inl ⟨h, by simp [execReadResult, Block.doneLevel, h]⟩
  · exact .inr ⟨h, by simp [execReadResult, Block.doneLevel, h]⟩

/-- What every instruction that has a next state leaves beside the block: the parameters, the pending inputs, the fault
mark, and all the host has received, to which it adds at most one value. -/
theorem exec_next_frame {i : Instr} {s t : State} (h : exec i s = .next t) :
    t.params = s.params ∧ t.inputs = s.inputs ∧ t.faultMark = s.faultMark ∧
      (t.returned = s.returned ∨ ∃ v, t.returned = s.returned ++ [v]) := by
  cases i with
  | start w a b =>
    obtain ⟨_, h'⟩ | ⟨_, _, h'⟩ | ⟨_, _, h'⟩ := execStart_cases w a b s
    all_goals simp only [exec, h', Host.Outcome.next.injEq, reduceCtorEq] at h
    all_goals subst h; simp
  | readResult =>
    obtain ⟨_, h'⟩ | ⟨_, h'⟩ := execReadResult_cases s
    all_goals simp only [exec, h', Host.Outcome.next.injEq, reduceCtorEq] at h
    subst h; simp
  | readStatus => simp only [exec, execReadStatus, Host.Outcome.next.injEq] at h; subst h; simp
  | readState => simp only [exec, execReadState, Host.Outcome.next.injEq] at h; subst h; simp
  | nop => simp only [exec, execNop, Host.Outcome.next.injEq] at h; subst h; simp
  | stepIdle => simp only [exec, execStepIdle, Host.Outcome.next.injEq] at h; subst h; simp
  | stepInit => simp only [exec, execStepInit, Host.Outcome.next.injEq] at h; subst h; simp
  | stepProp => simp only [exec, execStepProp, Host.Outcome.next.injEq] at h; subst h; simp
  | stepFinal => simp only [exec, execStepFinal, Host.Outcome.next.injEq] at h; subst h; simp
  | stepDone => simp only [exec, execStepDone, Host.Outcome.next.injEq] at h; subst h; simp
  | reserved110 => simp only [exec, execReserved110, reduceCtorEq] at h
  | reserved111 => simp only [exec, execReserved111, reduceCtorEq] at h

/-- All a step can do. -/
theorem step_cases (s : State) :
    (s.inputs = [] ∧ step s = .next s) ∨
    (∃ rest, s.inputs = .reset :: rest ∧ step s = .next (s.withInputs rest).powerOnReset) ∨
    (∃ c rest, s.inputs = .command c :: rest ∧
      ((∃ f, s.faultMark = some f ∧ step s = .fault f) ∨
       (s.faultMark = none ∧ c.rsv ≠ 0#5 ∧ step s = .refused .reservedBits) ∨
       (s.faultMark = none ∧ c.rsv = 0#5 ∧
        step s = exec (Instr.select c.cmd s.block.phase c.width c.aBus c.bBus) (s.withInputs rest)))) := by
  cases hi : s.inputs with
  | nil => exact .inl ⟨rfl, by simp [step, State.fetch, hi]⟩
  | cons x rest =>
    cases x with
    | reset => exact .inr (.inl ⟨rest, rfl, by simp [step, State.fetch, hi]⟩)
    | command c =>
      refine .inr (.inr ⟨c, rest, rfl, ?_⟩)
      cases hf : s.faultMark with
      | some f => exact .inl ⟨f, rfl, by simp [step, State.fetch, hi, hf]⟩
      | none =>
        by_cases hr : c.rsv = 0#5
        · exact .inr (.inr ⟨rfl, hr, by simp [step, State.fetch, hi, hf, decode, hr]⟩)
        · exact .inr (.inl ⟨rfl, hr, by simp [step, State.fetch, hi, hf, decode, hr]⟩)

/-- The step after `withFetchWord` runs exactly the instruction the table row's bits decode to. -/
theorem step_withFetchWord {s : State} {nbits w : Nat} {i : Instr} (h : decodeTableWord nbits w = some i) :
    step (s.withFetchWord nbits w) = exec i (s.withBlock (s.block.withTablePhase w)).withoutFault := by
  simp only [decodeTableWord] at h
  split at h
  · have hi : i = Instr.select ((BitVec.ofNat 6 w).extractLsb' 3 3) (s.block.withTablePhase w).phase 0 0 0 := by
      simp only [decodeRow] at h
      cases hp : Phase.ofCode? ((BitVec.ofNat 6 w).extractLsb' 0 3) with
      | some p =>
        simp only [hp, Option.some.injEq] at h
        simp only [Block.withTablePhase, hp, h]
      | none =>
        simp only [hp] at h
        split at h
        · cases h
        · next hs =>
          simp only [Option.some.injEq] at h
          simp only [Block.withTablePhase, hp, ← h, Instr.select, hs, if_false]
    subst hi
    rfl
  · cases h

end Sys2Proof.Machine
end

