-- ==== Sys2Proof/Laws/PerInstr.lean ====
section
/-! SUPPORT. Facts about instructions as syntax, one lemma per constructor. -/

namespace Sys2Proof.Laws

/-- The packed word of a well-formed instruction holds the command code, a zero RSV field and the width where
30_encoding.md rule R60 places them. -/
def EncodedFields.Statement (i : Instr) : Prop :=
  i.wellFormed = true →
    (encode i).word.extractLsb' 0 3 = i.cmdCode ∧ (encode i).word.extractLsb' 3 5 = 0#5 ∧
    ((encode i).word.extractLsb' 8 8).toNat = i.widthField

theorem EncodedFields.of_width (cmd : BitVec 3) (w : Nat) (a b : Operand) (h : w < 256) :
    (Command.word ⟨cmd, 0#5, w, a, b⟩).extractLsb' 0 3 = cmd ∧
    (Command.word ⟨cmd, 0#5, w, a, b⟩).extractLsb' 3 5 = 0#5 ∧
    ((Command.word ⟨cmd, 0#5, w, a, b⟩).extractLsb' 8 8).toNat = w := by
  refine ⟨?_, ?_, ?_⟩
  · ext k hk
    simp [Command.word_getLsbD, hk]
  · ext k hk
    have h1 : 3 + k < 8 := by omega
    simp [Command.word_getLsbD, h1]
  · have : (Command.word ⟨cmd, 0#5, w, a, b⟩).extractLsb' 8 8 = BitVec.ofNat 8 w := by
      ext k hk
      have h1 : ¬ (8 + k < 3) := by omega
      simp [Command.word_getLsbD, hk, h1]
    rw [this, BitVec.toNat_ofNat, Nat.mod_eq_of_lt h]

theorem EncodedFields.nop : EncodedFields.Statement .nop := fun _ => EncodedFields.of_width _ 0 0 0 (by decide)
theorem EncodedFields.start (width : Nat) (aBus bBus : Operand) :
    EncodedFields.Statement (.start width aBus bBus) := fun h =>
  EncodedFields.of_width _ width aBus bBus (by simpa [Instr.wellFormed] using h)
theorem EncodedFields.stepIdle : EncodedFields.Statement .stepIdle := fun _ => EncodedFields.of_width _ 0 0 0 (by decide)
theorem EncodedFields.stepInit : EncodedFields.Statement .stepInit := fun _ => EncodedFields.of_width _ 0 0 0 (by decide)
theorem EncodedFields.stepProp : EncodedFields.Statement .stepProp := fun _ => EncodedFields.of_width _ 0 0 0 (by decide)
theorem EncodedFields.stepFinal : EncodedFields.Statement .stepFinal := fun _ =>
  EncodedFields.of_width _ 0 0 0 (by decide)
theorem EncodedFields.stepDone : EncodedFields.Statement .stepDone := fun _ => EncodedFields.of_width _ 0 0 0 (by decide)
theorem EncodedFields.readResult : EncodedFields.Statement .readResult := fun _ =>
  EncodedFields.of_width _ 0 0 0 (by decide)
theorem EncodedFields.readStatus : EncodedFields.Statement .readStatus := fun _ =>
  EncodedFields.of_width _ 0 0 0 (by decide)
theorem EncodedFields.readState : EncodedFields.Statement .readState := fun _ =>
  EncodedFields.of_width _ 0 0 0 (by decide)
theorem EncodedFields.reserved110 : EncodedFields.Statement .reserved110 := fun _ =>
  EncodedFields.of_width _ 0 0 0 (by decide)
theorem EncodedFields.reserved111 : EncodedFields.Statement .reserved111 := fun _ =>
  EncodedFields.of_width _ 0 0 0 (by decide)

end Sys2Proof.Laws
end

