-- ==== Sys2Proof/Tests/Slice0.lean ====
section
/-! SUPPORT. Tests on small states, each expected value taken from spec/ as its comment says, and for every statement
with hypotheses a state that meets them. -/

namespace Sys2Proof.Tests

open Sys2Proof.Machine

set_option maxRecDepth 8192

/-- The next state, if there is one. -/
def next? (o : Host.Outcome State Fault Refusal) : Option State :=
  match o with
  | .next s => some s
  | .fault _ => none
  | .refused _ => none

/-- The refusal, if there is one. -/
def refusal? (o : Host.Outcome State Fault Refusal) : Option Refusal :=
  match o with
  | .next _ => none
  | .fault _ => none
  | .refused r => some r

/-- What the host has received in the next state. -/
def received? (o : Host.Outcome State Fault Refusal) : Option (List HostValue) := (next? o).map State.returned

/-- The status word in the next state. -/
def status? (o : Host.Outcome State Fault Refusal) : Option (BitVec 16) := (next? o).map fun s => s.block.status

/-- The machine with a trial of width `n` on `a` and `b`, `t` STEPs after its START. -/
def trial (n : Fin (Config.wMax + 1)) (a b : BitVec Config.wMax) (t : Nat) : State :=
  State.reset.withBlock (trialAt (Block.powerOn Config.wMax) n a b t)

/-- The machine of capacity `w`, right after power-on. -/
def small (w : Nat) : State := State.powerOn { wMax := w, gateDelay := 3 }

/-- The fault, if there is one. -/
def fault? (o : Host.Outcome State Fault Refusal) : Option Fault :=
  match o with
  | .next _ => none
  | .fault f => some f
  | .refused _ => none

/-- A command of a 16-bit word, with both buses 0. -/
def cmdOf (w : BitVec 16) : Command := Command.ofWord w 0 0

/-! ### Well-formedness refuses the ill-formed -/

theorem test_wellFormed_refuses_wide_start : (Instr.start 256 0 0).wellFormed = false := by decide
theorem test_packable_refuses_wide_record : (Command.packable ⟨1, 0, 256, 0, 0⟩) = false := by decide
theorem test_onBuses_refuses_wide_operand :
    (Instr.start 1 0 16).onBuses 4 = false ∧ (Instr.start 1 16 0).onBuses 4 = false ∧
      (Instr.start 1 15 15).onBuses 4 = true := by decide
theorem test_params_refuse_zero :
    Params.valid ⟨0, 1⟩ = false ∧ Params.valid ⟨1, 0⟩ = false ∧ Params.valid ⟨1, 1⟩ = true := by decide
theorem test_fits_refuses_step_of_other_phase : Instr.fits .idle .stepInit = false := by decide

/-! ### Decode: words of 30_encoding.md rules R60, R61 and 95_test_vectors.md -/

theorem test_decode_nop : decode .prop (cmdOf 0x0000#16) = .ok .nop := by decide
theorem test_decode_start : decode .idle (Command.ofWord 0x0401#16 0x5 0xA) = .ok (.start 4 0x5 0xA) := by decide
theorem test_decode_start_65 : decode .done (cmdOf 0x4101#16) = .ok (.start 65 0 0) := by decide
theorem test_decode_step_idle : decode .idle (cmdOf 0x0002#16) = .ok .stepIdle := by decide
theorem test_decode_step_init : decode .init (cmdOf 0x0002#16) = .ok .stepInit := by decide
theorem test_decode_step_prop : decode .prop (cmdOf 0x0002#16) = .ok .stepProp := by decide
theorem test_decode_step_final : decode .final (cmdOf 0x0002#16) = .ok .stepFinal := by decide
theorem test_decode_step_done : decode .done (cmdOf 0x0002#16) = .ok .stepDone := by decide
theorem test_decode_readResult : decode .done (cmdOf 0x0003#16) = .ok .readResult := by decide
theorem test_decode_readStatus : decode .idle (cmdOf 0x0004#16) = .ok .readStatus := by decide
theorem test_decode_readState : decode .idle (cmdOf 0x0005#16) = .ok .readState := by decide
theorem test_decode_reserved110 : decode .idle (cmdOf 0x0006#16) = .ok .reserved110 := by decide
theorem test_decode_reserved111 : decode .final (cmdOf 0x0007#16) = .ok .reserved111 := by decide
/-- V-EN-15 -/
theorem test_decode_reserved_bits : decode .idle (cmdOf 0x000A#16) = .error .reservedBits := by decide
/-- V-EN-12 -/
theorem test_decodeRow_step_in_init : decodeRow 0b010001#6 0 0 0 = some .stepInit := by decide
/-- V-EN-13 -/
theorem test_decodeTableWord_step_in_done : decodeTableWord 8 0b010100 = some .stepDone := by decide
/-- 30_encoding.md rule R61: STEP with an impossible PHASE code matches no row -/
theorem test_decodeRow_impossible_phase : decodeRow 0b010101#6 0 0 0 = none := by decide
theorem test_encode_start_word : (encode (.start 64 0 0)).word = 0x4001#16 := by decide
theorem test_fetch_word_runs_step_final :
    (next? (step (State.reset.withFetchWord 8 0b010011))).map (fun s => s.block.phase) = some .done := by decide
/-- V-EN-10, V-EN-11 -/
theorem test_unpack_rails : unpackCarry 3 0b100100 = .ok [.U, .C0, .C1] ∧ unpackCarry 1 0b11 = .error .illegalRail := by
  decide

/-! ### Host commands: 95_test_vectors.md section 2.3 -/

/-- V-HO-03 -/
theorem test_nop_in_prop : next? (exec .nop (trial 4 5 10 3)) = some (trial 4 5 10 3) := by decide
/-- V-HO-09: bus bits above WIDTH are dropped -/
theorem test_start_drops_high_bits :
    (next? (exec (.start 1 0xFF 0) State.reset)).map (fun s => (s.block.a.toNat, s.block.n.val, s.block.status)) =
      some (0x1, 1, 0x0001#16) := by decide
/-- V-HO-12: the busy check comes before the width check -/
theorem test_start_busy_before_width : refusal? (exec (.start 0 0 0) (trial 4 5 10 1)) = some .busy := by decide
/-- V-HO-06, V-HO-07 -/
theorem test_start_width_error :
    status? (exec (.start 65 0 0) (trial 1 1 0 2)) = some 0x0008#16 ∧
    status? (exec (.start 0 0 0) State.reset) = some 0x0008#16 := by decide
/-- 00_scope.md rules R6, R8: a machine of another capacity rejects the widths above its own -/
theorem test_start_in_other_capacity :
    status? (exec (.start 4 0 0) (small 3)) = some 0x0008#16 ∧ status? (exec (.start 3 0 0) (small 3)) = some 0x0001#16 := by
  decide
/-- 00_scope.md rule R7: the delay is read from the machine's own parameter -/
theorem test_delay_in_other_machine :
    received? (exec .readResult ((small 1).withBlock (trialAt (Block.powerOn 1) 1 1 0 2))) =
      some [.result ⟨[true], 2, 6⟩] := by decide
/-- source W-1, V-CY-01 -/
theorem test_read_result_in_done :
    received? (exec .readResult (trial 1 1 0 2)) = some [.result ⟨[true], 2, 4⟩] := by decide
/-- V-HO-13 -/
theorem test_read_result_in_final : refusal? (exec .readResult (trial 2 1 1 1)) = some .notDone := by decide
/-- 40_host_operations.md rule R78 -/
theorem test_read_status_in_prop :
    received? (exec .readStatus (trial 4 5 10 2)) = some [.status 0x0202#16] := by decide
/-- V-HO-05 -/
theorem test_read_state_after_power_on :
    received? (exec .readState State.reset) = some [.state ⟨0, [], [], 0b000#3, 0⟩] := by decide
/-- 95_test_vectors.md program P1 -/
theorem test_read_state_in_prop :
    received? (exec .readState (trial 4 5 10 1)) =
      some [.state ⟨4, [0b01#2, 0b00#2, 0b00#2, 0b00#2], [true, true, true, true], 0b010#3, 1⟩] := by decide
/-- V-HO-17 -/
theorem test_reserved_codes :
    refusal? (exec .reserved110 State.reset) = some .reservedCmd ∧
    refusal? (exec .reserved111 (trial 4 5 10 1)) = some .reservedCmd := by decide
/-- 70_reset_and_hazards.md rule R140: reset during a trial, and out of a faulted state -/
theorem test_reset_clears_fault_and_trial :
    next? (step (((trial 4 5 10 2).markFault .bounds).withInputs [.reset])) = some State.reset := by decide

/-! ### Carry cycles: 95_test_vectors.md section 3 -/

/-- V-HO-02 -/
theorem test_step_idle : status? (exec .stepIdle State.reset) = some 0x0000#16 := by decide
/-- V-CY-07 after INIT -/
theorem test_step_init :
    (next? (exec .stepInit (trial 3 3 1 0))).map (fun s => (s.block.carries, s.block.sumBits, s.block.status)) =
      some ([.C1, .U, .C0], [false, true, false], 0x0102#16) := by decide
/-- V-CY-12 after INIT: every position resolves at once -/
theorem test_step_init_all_equal :
    (next? (exec .stepInit (trial 4 15 15 0))).map (fun s => (s.block.carries, s.block.sumBits, s.block.phase)) =
      some ([.C1, .C1, .C1, .C1], [false, false, false, false], .final) := by decide
/-- V-CY-07 after PROP: the sum bit above the last carry to resolve still lags -/
theorem test_step_prop :
    (next? (exec .stepProp (trial 3 3 1 1))).map (fun s => (s.block.carries, s.block.sumBits, s.block.status)) =
      some ([.C1, .C1, .C0], [false, false, false], 0x0243#16) := by decide
/-- V-CY-09 after the first PROP: one position a cycle -/
theorem test_step_prop_ripples_one_position :
    (next? (exec .stepProp (trial 4 15 1 1))).map (fun s => (s.block.carries, s.block.sumBits, s.block.phase)) =
      some ([.C1, .C1, .U, .U], [false, false, true, true], .prop) := by decide
/-- V-CY-07 after FINAL -/
theorem test_step_final :
    (next? (exec .stepFinal (trial 3 3 1 2))).map (fun s => (s.block.carries, s.block.sumBits, s.block.status)) =
      some ([.C1, .C1, .C0], [false, false, true], 0x0344#16) := by decide
/-- V-HO-15 -/
theorem test_step_done : next? (exec .stepDone (trial 3 3 1 3)) = some (trial 3 3 1 3) := by decide

/-! ### The law quantities and the host's side -/

/-- V-LW-18: L = 3 and the carry out of 9 + 7 -/
theorem test_law_quantities :
    cycleCount (9#4) (7#4) 4 = 5 ∧ trueCarry (9#4) (7#4) 3 = true ∧ resolutionCycle (9#4) (7#4) 3 = 4 := by decide
/-- 70_reset_and_hazards.md rule R150: E[cycles] is 27/8 at width 4, over the 8 values of bits 1 to 3 of `A ^ B` -/
theorem test_expected_cycles_width_4 :
    ((List.range 8).map fun d => cycleCount (BitVec.ofNat 4 (2 * d)) (0#4) 4).sum = 27 := by decide
/-- V-EN-05 to V-EN-08 -/
theorem test_fromPattern :
    fromPattern 64 8 ['0', '0', '0', '0', '0', '0', '0', '1'] = .ok 0x80#64 ∧
    fromPattern 64 3 ['1', '0'] = .error .cfgPatternLength ∧ fromPattern 64 3 ['1', 'x', '0'] = .error .cfgPatternChar ∧
    fromPattern 64 2 ['1', 'x', '0'] = .error .cfgPatternLength := by decide
/-- 30_encoding.md rule R68 -/
theorem test_parse_start :
    parseLine ['S', 'T', 'A', 'R', 'T', ' ', '1', '2', ',', ' ', '0', 'x', '5', ',', '0', 'x', 'F', 'A', ' ', ';', 'c'] =
      .line (.start 12 5 250) := by decide
theorem test_parse_startp :
    parseLine ['S', 'T', 'A', 'R', 'T', 'P', ' ', '"', '1', '0', '"', ',', ' ', '"', '0', '1', '"'] =
      .line (.startp ['1', '0'] ['0', '1']) := by decide

/-- log entry 15: STEP* in a faulted state ends with the fault, in IDLE too -/
theorem test_stepStar_in_faulted_state :
    fault? ((State.reset.markFault .bounds).perform .stepStar) = some .bounds ∧
      next? (State.reset.perform .stepStar) = some State.reset := by decide
/-- log entry 6: an index outside the capacity is BOUNDS, whatever the code -/
theorem test_harness_write_meeting_both_faults :
    ((small 3).harnessWriteCarry 3 0b11#2).faultMark = some .bounds ∧
      ((small 3).harnessWriteCarry 2 0b11#2).faultMark = some .illegalRail := by decide
/-- 30_encoding.md rule R68, and log entry 19: a failing pattern is reported and nothing is issued -/
theorem test_runp_with_failing_pattern :
    AsmLine.expand 8 (.runp ['1', 'x'] ['0', '1']) = .error .cfgPatternChar ∧
      AsmLine.expand 8 (.runp ['1', '1'] ['0', '1']) =
        .ok [.issue (startCommand 2 3 2), .stepStar, .issue (encode .readResult)] := by decide

/-! ### Witnesses: a state and operands that meet the hypotheses of each statement -/

theorem witness_StepRunsDecodedInstruction :
    ∃ (s : State) (c : Command) (rest : List HostInput) (i : Instr),
      s.inputs = .command c :: rest ∧ s.faultMark = none ∧ decode s.block.phase c = .ok i :=
  ⟨(trial 4 5 10 1).present (cmdOf 0x0002#16), cmdOf 0x0002#16, [], .stepProp, rfl, rfl, by decide⟩

theorem witness_StepTakesInputsInOrder :
    (∃ s t : State, step s = .next t ∧ s.inputs = []) ∧ (∃ s t : State, step s = .next t ∧ s.inputs = [.reset]) :=
  ⟨⟨State.reset, _, rfl, rfl⟩, ⟨State.reset.withInputs [.reset], _, rfl, rfl⟩⟩

theorem witness_PowerOnResetFromAnyState : ∃ (s : State) (rest : List HostInput), s.inputs = .reset :: rest :=
  ⟨(trial 4 5 10 2).withInputs [.reset], [], rfl⟩

theorem witness_FaultMarkHoldsUntilReset :
    ∃ (s : State) (f : Fault), s.faultMark = some f ∧
      (∃ c rest, (s.present c).inputs = .command c :: rest) ∧ s.inputs = [] ∧
      (∃ rest, (s.withInputs [.reset]).inputs = .reset :: rest) :=
  ⟨State.reset.harnessWriteCarry 0 0b11#2, .illegalRail, by decide, ⟨cmdOf 0, [], rfl⟩, rfl, [], rfl⟩

theorem witness_UnmarkedStepNeverFaults :
    ∃ s t : State, s.faultMark = none ∧ step s = .next t := ⟨State.reset, _, rfl, rfl⟩

theorem witness_ParametersNeverChange : ∃ s t : State, step s = .next t ∧ s.inputs = [.reset] :=
  ⟨State.reset.withInputs [.reset], _, rfl, rfl⟩

theorem witness_HarnessCarryWriteMarksFaults :
    State.reset.faultMark = none ∧ State.reset.params.wMax ≤ 64 ∧ 63 < State.reset.params.wMax ∧
      (0b10#2 = CarryState.C1.rails) := by decide

theorem witness_BitVectorAccessIsBoundsChecked : (4 : Nat) ≤ 4 ∧ (3 : Nat) < 4 ∧ (0 : Nat) < 4 := by decide

theorem witness_CommandWordRoundTrip : Command.packable ⟨1, 0, 255, 0, 0⟩ = true := by decide

theorem witness_DecodeOfEncodeIsIdentity :
    Instr.fits .prop .stepProp = true ∧ Instr.fits .idle (.start 255 0 0) = true ∧
      (Instr.start 255 0 0).wellFormed = true := by decide

theorem witness_EncodeOfDecodeKeepsCommand :
    decode .idle ⟨0b001#3, 0#5, 300, 1, 2⟩ = .ok (.start 300 1 2) := by decide

theorem witness_DecodeWordFallsInOneRow :
    decodeRow 0b011111#6 0 0 0 = some .readResult ∧ decodeRow 0b010111#6 0 0 0 = none := by decide

theorem witness_StartLoadsTrial :
    (trial 4 5 10 1).block.phase = .prop ∧ (trial 4 5 10 0).block.phase = .init ∧ (trial 4 5 10 4).block.phase = .final ∧
    State.reset.block.phase = .idle ∧ State.reset.params.wMax < 65 ∧ 64 ≤ State.reset.params.wMax := by decide

theorem witness_WidthErrorEntersIdle :
    State.reset.block.phase = .idle ∧ (trial 1 1 0 2).block.phase = .done ∧ State.reset.params.wMax < 65 := by
  decide

theorem witness_OnlyStartWritesErr :
    (∃ t, exec (.start 64 0 0) State.reset = .next t) ∧ (∃ t, exec (.start 65 0 0) State.reset = .next t) ∧
      ∃ t, exec .nop State.reset = .next t := ⟨⟨_, rfl⟩, ⟨_, rfl⟩, ⟨_, rfl⟩⟩

theorem witness_AcceptedStartForgetsEarlierTrial :
    64 ≤ Config.params.wMax ∧ trialRuns (Block.powerOn 64).phase = false ∧
      trialRuns (trialAt (Block.powerOn 64) 4 5 10 5).phase = false := by decide

theorem witness_ReadResultReturnsRecordInDone :
    (trial 1 1 0 2).block.phase = .done ∧ (trial 1 1 0 1).block.phase ≠ .done ∧ 0 < (trial 1 1 0 2).block.n.val := by
  decide

theorem witness_ResultRecordAndItsPacking :
    (254 : Nat) ≤ 254 ∧ (256 : Nat) ≤ 256 ∧ (Block.powerOn 254).cyc ≤ 254 + 1 ∧
      (trialAt (Block.powerOn 4) 4 5#4 10#4 5).cyc ≤ 4 + 1 ∧ 3 < (trialAt (Block.powerOn 4) 4 5#4 10#4 5).n.val := by
  decide

theorem witness_ReadStateReturnsRecord : 3 < (trial 4 5 10 1).block.n.val := by decide

theorem witness_RepeatedReadsReturnSameValue :
    (∃ t, exec .readResult (trial 1 1 0 2) = .next t) ∧ (∃ t, exec .readStatus State.reset = .next t) ∧
      ∃ t, exec .readState State.reset = .next t := ⟨⟨_, rfl⟩, ⟨_, rfl⟩, ⟨_, rfl⟩⟩

theorem witness_ReservedEncodingsAreRefused :
    (State.reset.present (cmdOf 0x000A#16)).inputs = [.command (cmdOf 0x000A#16)] ∧
      (State.reset.present (cmdOf 0x000A#16)).faultMark = none ∧ (cmdOf 0x000A#16).rsv ≠ 0#5 := by decide

/-- one command for each clause, in a state that is not faulted -/
theorem witness_FirstFailingCheckDecides :
    (State.reset.present (cmdOf 0)).faultMark = none ∧
    (cmdOf 0x000E#16).rsv ≠ 0#5 ∧
    ((cmdOf 0x0006#16).rsv = 0#5 ∧ (cmdOf 0x0006#16).cmd = 0b110#3) ∧
    ((cmdOf 0x0001#16).cmd = 0b001#3 ∧ (trial 4 5 10 1).block.phase = .prop) ∧
    ((cmdOf 0x0003#16).cmd = 0b011#3 ∧ State.reset.block.phase ≠ .done) ∧
    ((cmdOf 0x4101#16).cmd = 0b001#3 ∧ State.reset.params.wMax < (cmdOf 0x4101#16).width) ∧
    (cmdOf 0x0002#16).rsv = 0#5 ∧
    fromPattern 8 2 ['1', 'x'] = .error .cfgPatternChar ∧
    fromPattern 8 2 ['1', '0'] = .ok 1 ∧ fromPattern 8 2 ['1'] = .error .cfgPatternLength := by
  decide

theorem witness_InitialCycleResultByKind :
    (∀ k : Fin 64, (trial 4 5 10 0).block.c[k] = .U) ∧ 3 < (trial 4 5 10 0).block.n.val := by decide

theorem witness_StepInInitRunsInitialCycle :
    (¬ ∀ k : Fin 64, k.val < 4 → (trial 4 5 10 0).block.resolve[k] ≠ .U) ∧
    (∀ k : Fin 64, k.val < 1 → (trial 1 1 0 0).block.resolve[k] ≠ .U) ∧
    (trial 1 1 0 0).block.n.val = 1 ∧
    (∀ k : Fin 64, 1 ≤ k.val → k.val < 4 → (trial 4 3 2 0).block.a[k] = (trial 4 3 2 0).block.b[k]) := by decide

theorem witness_StepInPropRunsPropagationCycle :
    (¬ ∀ k : Fin 64, k.val < 4 → (trial 4 5 10 2).block.resolve[k] ≠ .U) ∧
    (∀ k : Fin 64, k.val < 4 → (trial 4 5 10 3).block.resolve[k] ≠ .U) := by decide

theorem witness_CarryStatesAreMonotone :
    (∀ n a b, Instr.stepProp ≠ .start n a b) ∧ (∃ t, exec .stepProp (trial 4 5 10 1) = .next t) ∧
      (trial 4 5 10 1).block.c[0] ≠ .U := ⟨by intros; simp, ⟨_, rfl⟩, by decide⟩

theorem witness_RunningTrialKeepsItsOperands :
    (∃ t, exec .stepProp (trial 4 5 10 1) = .next t) ∧ ∃ t, exec (.start 4 5 10) State.reset = .next t :=
  ⟨⟨_, rfl⟩, ⟨_, rfl⟩⟩

theorem witness_CycCountsCarryCycles :
    (∃ t, exec .stepFinal (trial 4 5 10 4) = .next t) ∧ (∃ t, exec (.start 0 0 0) State.reset = .next t) ∧
      ∃ t, exec .nop State.reset = .next t := ⟨⟨_, rfl⟩, ⟨_, rfl⟩, ⟨_, rfl⟩⟩

theorem witness_PhaseFollowsTrialOrder :
    (Instr.fits (trial 4 5 10 4).block.phase .stepFinal = true ∧ ∃ t, exec .stepFinal (trial 4 5 10 4) = .next t) ∧
      (Instr.fits State.reset.block.phase (.start 1 0 0) = true ∧ ∃ t, exec (.start 1 0 0) State.reset = .next t) :=
  ⟨⟨by decide, _, rfl⟩, ⟨by decide, _, rfl⟩⟩

/-- a trial in PROP, with some carries resolved and some not, has the trial invariant -/
theorem witness_trial_invariant_in_prop : (trial 4 5 10 2).block.TrialInv := by
  constructor <;> decide

theorem witness_TrialInvariantKeptByStep :
    ((trial 4 5 10 2).present stepCommand).Inv ∧ ∃ t, step ((trial 4 5 10 2).present stepCommand) = .next t :=
  ⟨⟨by decide, witness_trial_invariant_in_prop, rfl⟩, _, rfl⟩

theorem witness_ReachableStatesNeverFault :
    ∃ s : State, Reachable s ∧ s.block.phase = .init :=
  ⟨_, .step [.command (encode (.start 4 5 10))] (.powerOn Config.params_valid) rfl, by decide⟩

theorem witness_PropCycleResolvesLowestUndetermined :
    (trialAt (Block.powerOn 4) 4 5#4 10#4 1).TrialInv ∧ (trialAt (Block.powerOn 4) 4 5#4 10#4 1).phase = .prop :=
  ⟨by constructor <;> decide, by decide⟩

theorem witness_PositionResolvesInItsCycle : 1 ≤ (4 : Fin 5).val ∧ (3 : Fin 4).val < (4 : Fin 5).val := by decide

theorem witness_TrialTakesLongestRunPlusTwo :
    1 ≤ (4 : Fin 5).val ∧ (∃ i, IsPropRun (5#4) (10#4) 4 i 3) ∧ ∀ i len, IsPropRun (5#4) (10#4) 4 i len → len ≤ 3 :=
  ⟨by decide, ⟨1, by decide, by decide, by
    intro j h1 h2
    have : j = 1 ∨ j = 2 ∨ j = 3 := by omega
    rcases this with rfl | rfl | rfl <;> decide⟩, fun i len h => by have := h.1; have := h.2.1; omega⟩

/-- width 1 is the lower boundary of every law, and `t` may lie beyond the trial -/
theorem witness_CyclesAreBounded :
    1 ≤ (1 : Fin 5).val ∧ (trialAt (Block.powerOn 4) 1 1#4 0#4 2).phase = .done ∧ (1 : Fin 5).val + 1 ≤ 2 := by decide

theorem witness_WidthOneTakesTwoCycles : (1 : Fin 5).val = 1 := by decide

theorem witness_TwoCyclesExactlyWithoutPropAboveZero :
    1 ≤ (4 : Fin 5).val ∧ (trialAt (Block.powerOn 4) 4 3#4 2#4 2).phase = .done ∧
      (trialAt (Block.powerOn 4) 4 5#4 10#4 2).phase ≠ .done := by decide

theorem witness_WorstCaseExactlyAllProp :
    1 ≤ (4 : Fin 5).val ∧ (trialAt (Block.powerOn 4) 4 5#4 10#4 4).phase ≠ .done ∧
      (trialAt (Block.powerOn 4) 4 3#4 2#4 4).phase = .done := by decide

theorem witness_DoneSumIsModularAddition :
    1 ≤ (4 : Fin 5).val ∧ (trialAt (Block.powerOn 4) 4 9#4 7#4 5).phase = .done := by decide

theorem witness_TopCarryStateIsCarryOut :
    (3 : Fin 4).val + 1 = (4 : Fin 5).val ∧ (trialAt (Block.powerOn 4) 4 9#4 7#4 5).phase = .done := by decide

theorem witness_SumBitChangesOnceAfterCarryIn :
    1 ≤ (4 : Fin 5).val ∧ 5 ≤ cycleCount (9#4) (7#4) 4 ∧ (3 : Fin 4).val < (4 : Fin 5).val := by decide

theorem witness_DelayIsTwiceTheCycles :
    1 ≤ (1 : Fin 5).val ∧ (trialAt (Block.powerOn 4) 1 1#4 0#4 2).phase = .done := by decide

theorem witness_AddingZeroGivesOperand :
    1 ≤ (4 : Fin 5).val ∧ (trialAt (Block.powerOn 4) 4 15#4 0 5).phase = .done := by decide

theorem witness_FromPatternReadsLsbFirst : ['1', '0', '1', '0'].length = 4 ∧ 4 ≤ 4 ∧ ['1', '0'].length ≠ 3 := by decide

theorem witness_StartpWidthIsFirstPatternLength :
    (∃ c, startpCommand 2 ['1', '0'] ['0', '1'] = .ok c) ∧ ([] : List Char).length ≠ ['1'].length ∧
      State.reset.faultMark = none ∧ trialRuns State.reset.block.phase = false := ⟨⟨_, rfl⟩, by decide, rfl, rfl⟩

theorem witness_StepStarEndsTrial :
    (trial 4 5 10 2).Inv ∧ (trial 4 5 10 0).Inv ∧ (trial 4 5 10 0).block.phase = .init :=
  ⟨⟨by decide, witness_trial_invariant_in_prop, rfl⟩, ⟨by decide, by constructor <;> decide, rfl⟩, by decide⟩

theorem witness_RunReturnsSimulationResult :
    State.reset.faultMark = none ∧ trialRuns State.reset.block.phase = false ∧ 64 ≤ State.reset.params.wMax := by
  decide

end Sys2Proof.Tests
end

/-! PROOFS. The statements of 10_state.md: what READ_STATUS returns, and that a resolved carry entry keeps its value. -/

namespace Sys2Proof.Machine

/-! ### Decoding a command code -/

/-- A command code decodes to the row it selects: `decode` tests nothing beside RSV. -/
theorem decodesTo_of_select {cmd : BitVec 3} {p : Phase} {i : Command → Instr}
    (h : ∀ c : Command, Instr.select cmd p c.width c.aBus c.bBus = i c) : DecodesTo cmd p i := by
  rintro c rfl
  refine ⟨fun hr => ?_, fun hr => ?_⟩
  · simp only [decode, if_pos hr, h]
  · simp only [decode, if_neg hr]

/-! ### The fields of the status word (10_state.md rule R33) -/

theorem Block.completeBit_iff {W : Nat} (b : Block W) :
    b.completeBit = true ↔ Completed b.c b.n.val ∧ 1 ≤ b.n.val := by
  simp only [Block.completeBit, Bool.and_eq_true, complete_iff, decide_eq_true_eq]

theorem Block.status_phaseField {W : Nat} (b : Block W) : b.status.extractLsb' 0 3 = b.phase.code := by
  ext k hk
  simp [Block.status_getLsbD, hk]

theorem Block.status_errField {W : Nat} (b : Block W) : b.status.extractLsb' 3 3 = b.err.code := by
  ext k hk
  have hk6 : 3 + k < 6 := by omega
  simp [Block.status_getLsbD, hk6, BitVec.getLsbD_eq_getElem hk]

theorem Block.status_completeField {W : Nat} (b : Block W) : b.status.getLsbD 6 = b.completeBit :=
  b.status_getLsbD 6

theorem Block.status_reservedField {W : Nat} (b : Block W) : b.status.getLsbD 7 = false :=
  b.status_getLsbD 7

theorem Block.status_cycField {W : Nat} (b : Block W) : b.status.extractLsb' 8 8 = BitVec.ofNat 8 b.cyc := by
  ext k hk
  have h3 : ¬ 8 + k < 3 := by omega
  have h6 : ¬ 8 + k < 6 := by omega
  have h6' : 8 + k ≠ 6 := by omega
  have h7 : 8 + k ≠ 7 := by omega
  simp [Block.status_getLsbD, h3, h6, h6', h7, hk]

/-- Settles O22: the word READ_STATUS appends is `Block.status`, whose fields are the lemmas above. -/
theorem readStatusReturnsFields : Obligations.ReadStatusReturnsFields := by
  unfold Obligations.ReadStatusReturnsFields
  refine ⟨fun p => decodesTo_of_select fun c => rfl, fun s => ⟨s.block.status, rfl, ?_⟩⟩
  refine ⟨s.block.status_phaseField, s.block.status_errField, ?_, s.block.status_reservedField, ?_⟩
  · rw [s.block.status_completeField, s.block.completeBit_iff]
  · rw [s.block.status_cycField, BitVec.toNat_ofNat]

/-! ### What an instruction other than START does to the block -/

/-- An instruction other than START that has a next state leaves the block alone or runs one of the two cycles of
41_carry_cycles.md on it, and changes nothing else but what the host has received. -/
theorem exec_next_block_cases {i : Instr} {s t : State} (hi : ∀ n a b, i ≠ .start n a b)
    (h : exec i s = .next t) :
    ∃ blk : Block s.params.wMax, t = { s with block := blk, returned := t.returned } ∧
      (blk = s.block ∨ blk = s.block.carryCycle ∨ blk = s.block.finalCycle) := by
  cases i with
  | start n a b => exact absurd rfl (hi n a b)
  | nop | stepIdle | stepDone | readStatus | readState => cases h; exact ⟨s.block, rfl, .inl rfl⟩
  | stepInit | stepProp => cases h; exact ⟨s.block.carryCycle, rfl, .inr (.inl rfl)⟩
  | stepFinal => cases h; exact ⟨s.block.finalCycle, rfl, .inr (.inr rfl)⟩
  | readResult =>
    obtain ⟨-, hr⟩ | ⟨-, hr⟩ := execReadResult_cases s
    · cases hr.symm.trans h; exact ⟨s.block, rfl, .inl rfl⟩
    · cases hr.symm.trans h
  | reserved110 | reserved111 => cases h

/-- Settles O34: only a carry cycle writes the carry entries, and carry resolution keeps every resolved one
(`resolve_kept`). -/
theorem carryStatesAreMonotone : Obligations.CarryStatesAreMonotone := by
  unfold Obligations.CarryStatesAreMonotone
  intro i s t hi h
  obtain ⟨blk, ht, hblk⟩ := exec_next_block_cases hi h
  refine ⟨blk, ht, fun k hk => ?_⟩
  obtain rfl | rfl | rfl := hblk
  · rfl
  · exact resolve_kept hk
  · rw [Block.finalCycle_c]

end Sys2Proof.Machine

/-! PROOFS. The statements of 30_encoding.md: the two-rail codes, the RESULT and STATE records with their packed
transports, and the host's `fromPattern`. -/

namespace Sys2Proof.Machine

/-! ### The positions below `N` as lists -/

@[simp] theorem Block.sumBits_length {W : Nat} (b : Block W) : b.sumBits.length = b.n.val := List.length_ofFn

@[simp] theorem Block.carries_length {W : Nat} (b : Block W) : b.carries.length = b.n.val := List.length_ofFn

theorem Block.sumBits_getElem? {W : Nat} (b : Block W) {k : Fin W} (h : k.val < b.n.val) :
    b.sumBits[k.val]? = some b.s[k] := by
  simp [Block.sumBits, h]

theorem Block.carries_getElem? {W : Nat} (b : Block W) {k : Fin W} (h : k.val < b.n.val) :
    b.carries[k.val]? = some b.c[k] := by
  simp [Block.carries, h]

/-! ### The packed RESULT record (30_encoding.md rule R66) -/

theorem Block.packedResult_sum_getElem {W : Nat} (gd : Nat) (b : Block W) (k : Fin W) :
    (b.packedResult gd).sum[k] = if k.val < b.n.val then b.s[k] else false :=
  bitsOf_getElem_fin W _ k

theorem Block.packedResult_cycles_exact {W : Nat} (gd : Nat) {b : Block W} (h : b.cyc < 2 ^ 8) :
    (b.packedResult gd).cycles.toNat = b.cyc :=
  (BitVec.toNat_ofNat _ _).trans (Nat.mod_eq_of_lt h)

theorem Block.packedResult_delay_exact {W gd : Nat} {b : Block W} (h : b.cyc * gd < 2 ^ 16) :
    (b.packedResult gd).delay.toNat = b.cyc * gd :=
  (BitVec.toNat_ofNat _ _).trans (Nat.mod_eq_of_lt h)

/-- Settles O21: the record lists the positions below `N`, and under the rule's bounds `CYC` is at most 255 and the delay
at most 255 * 256, so neither packed field wraps. -/
theorem resultRecordAndItsPacking : Obligations.ResultRecordAndItsPacking := by
  unfold Obligations.ResultRecordAndItsPacking
  intro W gd b
  refine ⟨b.sumBits_length, fun k hk => b.sumBits_getElem? hk, rfl, rfl, b.packedResult_sum_getElem gd, ?_⟩
  intro hW hgd hcyc
  have hcyc' : b.cyc ≤ 255 := by omega
  have hdelay : b.cyc * gd ≤ 255 * 256 := Nat.mul_le_mul hcyc' hgd
  exact ⟨b.packedResult_cycles_exact gd (by omega), Block.packedResult_delay_exact (by omega)⟩

/-! ### Packed two-rail codes (30_encoding.md rules R55, R67) -/

/-- The code of position `k` stands at bits `[2k+1:2k]` of the packed number. -/
theorem packCarry_code (rs : List (BitVec 2)) (k : Nat) (h : k < rs.length) :
    packCarry rs / 4 ^ k % 4 = rs[k].toNat := by
  induction rs generalizing k with
  | nil => exact absurd h (Nat.not_lt_zero k)
  | cons r rs ih =>
    have hr : r.toNat < 4 := r.isLt
    cases k with
    | zero =>
      simp only [packCarry, Nat.pow_zero, Nat.div_one, List.getElem_cons_zero]
      omega
    | succ j =>
      have htail : (r.toNat + 4 * packCarry rs) / 4 = packCarry rs := by omega
      rw [packCarry, Nat.pow_succ', ← Nat.div_div_eq_div_mul, htail, List.getElem_cons_succ]
      exact ih j (Nat.lt_of_succ_lt_succ h)

/-- `packCarry_code` for a position whose code is known, the field written as a shift by `2k` bits. -/
theorem packCarry_code_of_getElem? {rs : List (BitVec 2)} {k : Nat} {r : BitVec 2} (h : rs[k]? = some r) :
    packCarry rs / 2 ^ (2 * k) % 4 = r.toNat := by
  obtain ⟨hk, rfl⟩ := List.getElem?_eq_some_iff.1 h
  rw [Nat.pow_mul]
  exact packCarry_code rs k hk

/-! ### The STATE record (30_encoding.md rule R67) -/

theorem Block.stateRecord_carry_length {W : Nat} (b : Block W) : b.stateRecord.carry.length = b.n.val :=
  List.length_map _ |>.trans b.carries_length

theorem Block.stateRecord_carry_getElem? {W : Nat} (b : Block W) {k : Fin W} (h : k.val < b.n.val) :
    b.stateRecord.carry[k.val]? = some b.c[k].rails := by
  simp only [Block.stateRecord, List.getElem?_map, b.carries_getElem? h, Option.map_some]

/-- Settles O23: the record READ_STATE appends is `Block.stateRecord`. -/
theorem readStateReturnsRecord : Obligations.ReadStateReturnsRecord := by
  unfold Obligations.ReadStateReturnsRecord
  refine ⟨fun p => decodesTo_of_select fun c => rfl, fun s => ⟨s.block.stateRecord, rfl, ?_⟩⟩
  refine ⟨rfl, s.block.stateRecord_carry_length, s.block.sumBits_length, fun k hk => ?_, rfl, rfl⟩
  have hcode := s.block.stateRecord_carry_getElem? hk
  exact ⟨hcode, packCarry_code_of_getElem? hcode, s.block.sumBits_getElem? hk⟩

/-! ### The two-rail codes (30_encoding.md rules R55, R56) -/

theorem ofRails?_rails (x : CarryState) : CarryState.ofRails? x.rails = some x := by
  cases x <;> rfl

theorem ofRails?_illegal : CarryState.ofRails? 0b11#2 = none := rfl

/-- Settles O6: the three codes as rule R55 writes them, with the decode back. -/
theorem railCodesOfCarryStates : Obligations.RailCodesOfCarryStates := by
  unfold Obligations.RailCodesOfCarryStates
  exact ⟨rfl, rfl, rfl, ofRails?_rails, ofRails?_illegal⟩

/-! ### `fromPattern` (30_encoding.md rule R63) -/

theorem fromPattern_wrong_length {n : Nat} {p : List Char} (W : Nat) (hlen : p.length ≠ n) :
    fromPattern W n p = .error .cfgPatternLength := if_pos hlen

theorem all_binary_iff (p : List Char) :
    p.all (fun ch => ch == '0' || ch == '1') = true ↔ ∀ ch ∈ p, ch = '0' ∨ ch = '1' := by
  simp only [List.all_eq_true, Bool.or_eq_true, beq_iff_eq]

theorem fromPattern_wrong_char {n : Nat} {p : List Char} (W : Nat) (hlen : p.length = n)
    (hbin : ¬ ∀ ch ∈ p, ch = '0' ∨ ch = '1') : fromPattern W n p = .error .cfgPatternChar := by
  rw [← all_binary_iff] at hbin
  rw [fromPattern, if_neg (not_not.2 hlen), if_neg hbin]

theorem fromPattern_binary {n : Nat} {p : List Char} (W : Nat) (hlen : p.length = n)
    (hbin : ∀ ch ∈ p, ch = '0' ∨ ch = '1') :
    fromPattern W n p = .ok (bitsOf W fun k => p[k.val]? == some '1') := by
  rw [fromPattern, if_neg (not_not.2 hlen), if_pos ((all_binary_iff p).2 hbin)]

/-- Settles O54: the three branches of `fromPattern`, in the order of its checks. -/
theorem fromPatternReadsLsbFirst : Obligations.FromPatternReadsLsbFirst := by
  unfold Obligations.FromPatternReadsLsbFirst
  simp only [ite_prop_iff_and, not_not]
  refine fun W n p => ⟨fromPattern_wrong_length W, fun hlen => ⟨fromPattern_wrong_char W hlen, fun hbin _ => ?_⟩⟩
  refine ⟨_, fromPattern_binary W hlen hbin, fun k => ?_⟩
  rw [bitsOf_getElem_fin, Bool.beq_eq_decide_eq]

end Sys2Proof.Machine

/-! PROOFS. The statements of 40_host_operations.md: NOP, START, READ_RESULT and the reserved encodings. -/

namespace Sys2Proof.Machine

/-! ### NOP (40_host_operations.md rule R75) -/

/-- Settles O15: the NOP arm of `exec` answers its argument, and `decode` tests nothing but RSV before it. -/
theorem nopChangesNothing : Obligations.NopChangesNothing := by
  unfold Obligations.NopChangesNothing
  exact ⟨fun p => decodesTo_of_select fun c => rfl, fun s => rfl⟩

/-! ### START (40_host_operations.md rule R76) -/

theorem trialRuns_iff (p : Phase) : trialRuns p = true ↔ p = .init ∨ p = .prop ∨ p = .final := by
  cases p <;> simp [trialRuns]

theorem trialRuns_eq_false_iff (p : Phase) : trialRuns p = false ↔ ¬ (p = .init ∨ p = .prop ∨ p = .final) := by
  rw [← trialRuns_iff, Bool.not_eq_true]

/-- What START keeps of an unsigned integer operand (30_encoding.md rule R65). -/
theorem loadBus_busOfNat_getElem {W : Nat} (n : Fin (W + 1)) (v : Nat) (k : Fin W) :
    (loadBus n (busOfNat W v))[k] = if k.val < n.val then v.testBit k.val else false := by
  rw [loadBus_getElem, busOfNat_getElem]

theorem Block.load_c_getElem {W : Nat} (old : Block W) (n : Fin (W + 1)) (x y : BitVec W) (k : Fin W) :
    (old.load n x y).c[k] = .U := Vector.getElem_replicate k.isLt

theorem Block.load_s_getElem {W : Nat} (old : Block W) (n : Fin (W + 1)) (x y : BitVec W) (k : Fin W) :
    (old.load n x y).s[k] = false := BitVec.getElem_zero k.isLt

/-- Settles O16: the three answers of `execStart_cases`, each under its own branch of rule R76's chain. -/
theorem startLoadsTrial : Obligations.StartLoadsTrial := by
  unfold Obligations.StartLoadsTrial
  refine ⟨fun p => decodesTo_of_select fun c => rfl, fun s n a b => ?_⟩
  obtain ⟨hrun, hexec⟩ | ⟨hquiet, hwidth, hexec⟩ | ⟨hquiet, ⟨hlow, hhigh⟩, hexec⟩ := execStart_cases n a b s
  · rw [if_pos ((trialRuns_iff _).1 hrun)]
    exact hexec
  · rw [if_neg ((trialRuns_eq_false_iff _).1 hquiet), if_pos hwidth]
    exact hexec
  · have hwidth : ¬ (n = 0 ∨ s.params.wMax < n) := by omega
    rw [if_neg ((trialRuns_eq_false_iff _).1 hquiet), if_neg hwidth]
    refine ⟨_, hexec, rfl, rfl, rfl, rfl, fun k => ⟨?_, ?_, ?_, ?_⟩⟩
    · exact loadBus_busOfNat_getElem _ a k
    · exact loadBus_busOfNat_getElem _ b k
    · exact Block.load_c_getElem _ _ _ _ k
    · exact Block.load_s_getElem _ _ _ _ k

/-! ### READ_RESULT (40_host_operations.md rule R77) -/

theorem exec_readResult_of_done {s : State} (h : s.block.phase = .done) :
    exec .readResult s = .next (s.give (.result (s.block.resultRecord s.params.gateDelay))) := by
  obtain ⟨-, hexec⟩ | ⟨hne, -⟩ := execReadResult_cases s
  · exact hexec
  · exact absurd h hne

theorem exec_readResult_of_not_done {s : State} (h : s.block.phase ≠ .done) :
    exec .readResult s = .refused .notDone := by
  obtain ⟨hdone, -⟩ | ⟨-, hexec⟩ := execReadResult_cases s
  · exact absurd hdone h
  · exact hexec

/-- Settles O20: the record READ_RESULT appends in DONE is `Block.resultRecord` at the machine's own GATE_DELAY. -/
theorem readResultReturnsRecordInDone : Obligations.ReadResultReturnsRecordInDone := by
  unfold Obligations.ReadResultReturnsRecordInDone
  refine ⟨fun p => decodesTo_of_select fun c => rfl, fun s => ⟨exec_readResult_of_not_done, fun hdone => ?_⟩⟩
  exact ⟨s.block.resultRecord s.params.gateDelay, exec_readResult_of_done hdone,
    s.block.sumBits_length, fun k hk => s.block.sumBits_getElem? hk, rfl, rfl⟩

/-! ### The reserved encodings (40_host_operations.md rule R80) -/

/-- A presented command whose RSV is not 0 is refused before anything else is tested, unless the state is faulted. -/
theorem step_refused_of_reservedBits {s : State} {c : Command} {rest : List HostInput}
    (hin : s.inputs = .command c :: rest) (hmark : s.faultMark = none) (hrsv : c.rsv ≠ 0#5) :
    step s = .refused .reservedBits := by
  have hdecode : decode s.block.phase c = .error .reservedBits := if_neg hrsv
  simp only [step, State.fetch, hin, hmark, hdecode]

/-- Settles O24: both codes select a row whose arm refuses; the RSV check stands in `step`, before any arm runs. -/
theorem reservedEncodingsAreRefused : Obligations.ReservedEncodingsAreRefused := by
  unfold Obligations.ReservedEncodingsAreRefused
  exact ⟨fun p => decodesTo_of_select fun c => rfl, fun p => decodesTo_of_select fun c => rfl,
    fun s => rfl, fun s => rfl, fun s c rest => step_refused_of_reservedBits⟩

end Sys2Proof.Machine

/-! PROOFS. The statements of 41_carry_cycles.md: STEP in each phase, and the delay of a finished trial. -/

namespace Sys2Proof.Machine

/-! ### STEP in IDLE and in DONE (41_carry_cycles.md rules R100, R101) -/

/-- Settles O28: in IDLE the code 0b010 selects STEP.IDLE, whose arm of `exec` answers its argument. -/
theorem stepInIdleChangesNothing : Obligations.StepInIdleChangesNothing := by
  unfold Obligations.StepInIdleChangesNothing
  exact ⟨decodesTo_of_select fun c => rfl, fun s => rfl⟩

/-- Settles O29: in DONE the code 0b010 selects STEP.DONE, whose arm of `exec` answers its argument. -/
theorem stepInDoneChangesNothing : Obligations.StepInDoneChangesNothing := by
  unfold Obligations.StepInDoneChangesNothing
  exact ⟨decodesTo_of_select fun c => rfl, fun s => rfl⟩

/-! ### What a carry cycle determines (41_carry_cycles.md rules R93, R95) -/

/-- A position is determined after a cycle when its operand bits are equal or its carry-in is determined. -/
theorem resolve_determined {W : Nat} {b : Block W} {k : Fin W} (hk : k.val < b.n.val)
    (h : b.a[k] = b.b[k] ∨ cin k b.c ≠ .U) : b.resolve[k] ≠ .U := by
  by_cases hc : b.c[k] = .U
  · rw [resolve_getElem, if_neg (Nat.not_le.2 hk), hc]
    cases hkind : b.kind k with
    | gen | kill => simp
    | prop =>
      have heq : b.a[k] ≠ b.b[k] := fun heq => by
        cases ha : b.a[k] with
        | true => simp [kind_gen ha (heq ▸ ha)] at hkind
        | false => simp [kind_kill ha (heq ▸ ha)] at hkind
      exact h.resolve_left heq
  · rw [resolve_kept hc]
    exact hc

/-- A carry-in is determined when every position below is. -/
theorem cin_determined {W m : Nat} {x : Vector CarryState W} (h : Completed x m) {k : Fin W} (hk : k.val ≤ m) :
    cin k x ≠ .U := by
  by_cases h0 : k.val = 0
  · simp [cin_zero x h0]
  · have hj : k.val - 1 < W := by omega
    rw [cin_succ (j := ⟨k.val - 1, hj⟩) x (Nat.sub_add_cancel (by omega))]
    exact h ⟨k.val - 1, hj⟩ (show k.val - 1 < m by omega)

theorem completed_zero {W : Nat} (x : Vector CarryState W) : Completed x 0 :=
  fun k hk => absurd hk (Nat.not_lt_zero k.val)

/-- Resolution moves up by at least one position a cycle. -/
theorem completed_resolve_succ {W m : Nat} {b : Block W} (h : Completed b.c m) (hm : m < b.n.val) :
    Completed b.resolve (m + 1) :=
  fun k hk => resolve_determined (by omega) (.inr (cin_determined h (by omega)))

/-- With no PROP position in `[1, N)` one cycle determines every position, from any start-of-cycle carry states. -/
theorem completed_resolve_of_no_prop {W : Nat} {b : Block W}
    (h : ∀ k : Fin W, 1 ≤ k.val → k.val < b.n.val → b.a[k] = b.b[k]) : Completed b.resolve b.n.val := by
  intro k hk
  refine resolve_determined hk ?_
  by_cases h0 : k.val = 0
  · exact .inr (cin_determined (completed_zero b.c) (by omega))
  · exact .inl (h k (by omega) hk)

theorem carryCycle_phase_of_completed {W : Nat} {b : Block W} (h : Completed b.resolve b.n.val) :
    b.carryCycle.phase = .final := by
  rw [Block.carryCycle_phase, if_pos ((complete_iff _ _).2 h)]

theorem carryCycle_phase_of_not_completed {W : Nat} {b : Block W} (h : ¬ Completed b.resolve b.n.val) :
    b.carryCycle.phase = .prop := by
  rw [Block.carryCycle_phase, if_neg fun hc => h ((complete_iff _ _).1 hc)]

/-! ### STEP in INIT, PROP and FINAL (41_carry_cycles.md rules R97 to R99) -/

/-- Settles O30: the next block is `Block.carryCycle`; a trial of width 1 is one with no position in `[1, N)`. -/
theorem stepInInitRunsInitialCycle : Obligations.StepInInitRunsInitialCycle := by
  unfold Obligations.StepInInitRunsInitialCycle
  refine ⟨decodesTo_of_select fun c => rfl, fun s => ⟨s.block.carryCycle, rfl, rfl, sumUpdate_sumsTo _,
    resolve_resolvesTo _, carryCycle_phase_of_completed, carryCycle_phase_of_not_completed, fun hn => ?_, fun hab => ?_⟩⟩
  · exact carryCycle_phase_of_completed (completed_resolve_of_no_prop fun k h1 hk => by omega)
  · exact carryCycle_phase_of_completed (completed_resolve_of_no_prop hab)

/-- Settles O32: the next block is `Block.carryCycle`, the same cycle as in INIT. -/
theorem stepInPropRunsPropagationCycle : Obligations.StepInPropRunsPropagationCycle := by
  unfold Obligations.StepInPropRunsPropagationCycle
  exact ⟨decodesTo_of_select fun c => rfl, fun s => ⟨s.block.carryCycle, rfl, rfl, sumUpdate_sumsTo _,
    resolve_resolvesTo _, carryCycle_phase_of_completed, carryCycle_phase_of_not_completed⟩⟩

/-- Settles O33: the next block is `Block.finalCycle`, whose sum is `Block.sumUpdate`. -/
theorem stepInFinalFinishesSum : Obligations.StepInFinalFinishesSum := by
  unfold Obligations.StepInFinalFinishesSum
  exact ⟨decodesTo_of_select fun c => rfl, fun s => ⟨s.block.sumUpdate, rfl, sumUpdate_sumsTo _⟩⟩

/-! ### The range of CYC in a trial (41_carry_cycles.md rules R105, R112) -/

/-- Which values of CYC each phase of a trial of width at least 1 goes with. A carry cycle raises the lowest
undetermined position by at least one, so CYC stays below `N` until completion. -/
structure Block.CycInRange {W : Nat} (b : Block W) : Prop where
  /-- before completion, the positions below CYC are determined and do not reach `N` -/
  carrying : b.phase = .init ∨ b.phase = .prop → b.cyc < b.n.val ∧ Completed b.c b.cyc
  /-- FINAL is entered by one of the first `N` carry cycles -/
  final : b.phase = .final → 1 ≤ b.cyc ∧ b.cyc ≤ b.n.val
  /-- the finalization cycle is one more -/
  done : b.phase = .done → 2 ≤ b.cyc ∧ b.cyc ≤ b.n.val + 1

theorem Block.load_cycInRange {W : Nat} (old : Block W) {n : Fin (W + 1)} (a b : BitVec W) (hn : 1 ≤ n.val) :
    (old.load n a b).CycInRange where
  carrying _ := ⟨hn, completed_zero _⟩
  final h := by cases h
  done h := by cases h

theorem Block.CycInRange.carryCycle {W : Nat} {b : Block W} (h : b.CycInRange)
    (hp : b.phase = .init ∨ b.phase = .prop) : b.carryCycle.CycInRange := by
  obtain ⟨hcyc, hlow⟩ := h.carrying hp
  have hlow' : Completed b.resolve (b.cyc + 1) := completed_resolve_succ hlow hcyc
  by_cases hc : Completed b.resolve b.n.val
  · have hfinal := carryCycle_phase_of_completed hc
    exact {
      carrying := by simp only [hfinal, reduceCtorEq, or_self, false_implies]
      final := fun _ => ⟨Nat.le_add_left 1 b.cyc, hcyc⟩
      done := by simp only [hfinal, reduceCtorEq, false_implies] }
  · have hprop := carryCycle_phase_of_not_completed hc
    have hne : b.cyc + 1 ≠ b.n.val := fun heq => hc (heq ▸ hlow')
    exact {
      carrying := fun _ => ⟨Nat.lt_of_le_of_ne hcyc hne, hlow'⟩
      final := by simp only [hprop, reduceCtorEq, false_implies]
      done := by simp only [hprop, reduceCtorEq, false_implies] }

theorem Block.CycInRange.finalCycle {W : Nat} {b : Block W} (h : b.CycInRange) (hp : b.phase = .final) :
    b.finalCycle.CycInRange where
  carrying hp' := by simp at hp'
  final hp' := by simp at hp'
  done _ := by
    obtain ⟨hlow, hhigh⟩ := h.final hp
    exact ⟨Nat.succ_le_succ hlow, Nat.succ_le_succ hhigh⟩

/-- All a STEP can do to the block. -/
theorem Block.advance_cases {W : Nat} (b : Block W) :
    (b.phase = .idle ∨ b.phase = .done) ∧ b.advance = b ∨
    (b.phase = .init ∨ b.phase = .prop) ∧ b.advance = b.carryCycle ∨
    b.phase = .final ∧ b.advance = b.finalCycle := by
  unfold Block.advance
  cases b.phase <;> simp

theorem Block.CycInRange.advance {W : Nat} {b : Block W} (h : b.CycInRange) : b.advance.CycInRange := by
  obtain ⟨-, heq⟩ | ⟨hp, heq⟩ | ⟨hp, heq⟩ := b.advance_cases
  all_goals rw [heq]
  · exact h
  · exact h.carryCycle hp
  · exact h.finalCycle hp

@[simp] theorem Block.advance_n {W : Nat} (b : Block W) : b.advance.n = b.n := by
  obtain ⟨-, heq⟩ | ⟨-, heq⟩ | ⟨-, heq⟩ := b.advance_cases
  all_goals rw [heq]
  · exact b.carryCycle_n
  · exact b.finalCycle_n

@[simp] theorem trialAt_n {W : Nat} (old : Block W) (n : Fin (W + 1)) (a b : BitVec W) (t : Nat) :
    (trialAt old n a b t).n = n := by
  induction t with
  | zero => rfl
  | succ t ih => exact (Block.advance_n _).trans ih

theorem trialAt_cycInRange {W : Nat} (old : Block W) {n : Fin (W + 1)} (a b : BitVec W) (hn : 1 ≤ n.val) (t : Nat) :
    (trialAt old n a b t).CycInRange := by
  induction t with
  | zero => exact old.load_cycInRange a b hn
  | succ t ih => exact ih.advance

/-- `2 <= cycles <= N + 1` (41_carry_cycles.md rule R105). -/
theorem trialAt_done_cyc {W : Nat} {old : Block W} {n : Fin (W + 1)} {a b : BitVec W} {t : Nat} (hn : 1 ≤ n.val)
    (h : (trialAt old n a b t).phase = .done) :
    2 ≤ (trialAt old n a b t).cyc ∧ (trialAt old n a b t).cyc ≤ n.val + 1 := by
  simpa only [trialAt_n] using (trialAt_cycInRange old a b hn t).done h

theorem Block.delay_gateDelay {W : Nat} (b : Block W) : b.delay Config.gateDelay = 2 * b.cyc :=
  Nat.mul_comm b.cyc 2

/-- Settles O51: the bounds are twice those on the cycles of a finished trial. -/
theorem delayIsTwiceTheCycles : Obligations.DelayIsTwiceTheCycles := by
  unfold Obligations.DelayIsTwiceTheCycles
  intro W old n a b t hn hdone
  obtain ⟨hlow, hhigh⟩ := trialAt_done_cyc hn hdone
  rw [Block.delay_gateDelay]
  exact ⟨rfl, by omega, by omega⟩

end Sys2Proof.Machine

/-! PROOFS. The statements of 60_exceptions.md: the ConfigurationError, who writes ERR, and the order of checks. -/

namespace Sys2Proof.Machine

/-! ### What START answers, check by check (60_exceptions.md rules R121, R123) -/

theorem trialRuns_eq_false_of_idle_or_done {p : Phase} (h : p = .idle ∨ p = .done) : trialRuns p = false := by
  obtain rfl | rfl := h
  · rfl
  · rfl

theorem exec_start_of_trialRuns {s : State} (n : Nat) (a b : Operand) (h : trialRuns s.block.phase = true) :
    exec (.start n a b) s = .refused .busy := by
  obtain ⟨-, hexec⟩ | ⟨hquiet, -⟩ | ⟨hquiet, -⟩ := execStart_cases n a b s
  · exact hexec
  · exact absurd (h.symm.trans hquiet) (by decide)
  · exact absurd (h.symm.trans hquiet) (by decide)

theorem exec_start_of_bad_width {s : State} {n : Nat} (a b : Operand) (hquiet : trialRuns s.block.phase = false)
    (hwidth : n = 0 ∨ s.params.wMax < n) :
    exec (.start n a b) s = .next (s.raiseConfigError .cfgWidthRange) := by
  obtain ⟨hrun, -⟩ | ⟨-, -, hexec⟩ | ⟨-, hok, -⟩ := execStart_cases n a b s
  · exact absurd (hrun.symm.trans hquiet) (by decide)
  · exact hexec
  · omega

/-- Settles O17: IDLE and DONE are the phases in which no trial runs, and the four writes are `Block.rejectTrial`. -/
theorem widthErrorEntersIdle : Obligations.WidthErrorEntersIdle := by
  unfold Obligations.WidthErrorEntersIdle
  intro s n a b hphase hwidth
  exact exec_start_of_bad_width a b (trialRuns_eq_false_of_idle_or_done hphase) hwidth

/-! ### Who writes ERR (60_exceptions.md rules R125, R126) -/

theorem exec_start_next_err {s t : State} {n : Nat} {a b : Operand} (h : exec (.start n a b) s = .next t) :
    if 1 ≤ n ∧ n ≤ s.params.wMax then t.block.err = .none else t.block.err = .cfgWidthRange := by
  obtain ⟨-, hexec⟩ | ⟨-, hwidth, hexec⟩ | ⟨-, hwidth, hexec⟩ := execStart_cases n a b s
  · cases hexec.symm.trans h
  · cases hexec.symm.trans h
    rw [if_neg (by omega)]
    exact s.block.rejectTrial_err _
  · cases hexec.symm.trans h
    rw [if_pos hwidth]
    exact s.block.load_err _ _ _

/-- Neither cycle of 41_carry_cycles.md writes ERR, and no other write to the block is open to these instructions. -/
theorem exec_next_err_of_not_start {i : Instr} {s t : State} (hi : ∀ n a b, i ≠ .start n a b)
    (h : exec i s = .next t) : t.block.err = s.block.err := by
  obtain ⟨blk, ht, hblk⟩ := exec_next_block_cases hi h
  have herr : t.block.err = blk.err := congrArg (fun u : State => u.block.err) ht
  rw [herr]
  obtain rfl | rfl | rfl := hblk
  · rfl
  · exact s.block.carryCycle_err
  · exact s.block.finalCycle_err

/-- Settles O18: `exec_start_next_err` for START, `exec_next_err_of_not_start` for the rest. -/
theorem onlyStartWritesErr : Obligations.OnlyStartWritesErr := by
  unfold Obligations.OnlyStartWritesErr
  intro i s t h
  by_cases hi : ∀ n a b, i ≠ .start n a b
  · exact .inr ⟨hi, exec_next_err_of_not_start hi h⟩
  · push Not at hi
    obtain ⟨n, a, b, rfl⟩ := hi
    exact .inl ⟨n, a, b, rfl, exec_start_next_err h⟩

/-- Settles O27: each of these arms answers a next state outright, and none of them is START. -/
theorem cyclesNeverFail : Obligations.CyclesNeverFail := by
  unfold Obligations.CyclesNeverFail
  intro i s hi
  have hnext : ∃ t, exec i s = .next t := by
    obtain rfl | rfl | rfl | rfl | rfl | rfl | rfl | rfl := hi
    all_goals exact ⟨_, rfl⟩
  have hstart : ∀ n a b, i ≠ .start n a b := by
    rintro n a b rfl
    simp only [reduceCtorEq, or_self] at hi
  obtain ⟨t, ht⟩ := hnext
  exact ⟨t, ht, exec_next_err_of_not_start hstart ht⟩

/-! ### The order of checks (60_exceptions.md rule R123) -/

theorem stepIn_cmdCode (p : Phase) : (Instr.stepIn p).cmdCode = 0b010#3 := by
  cases p <;> rfl

theorem command_code_cases (cmd : BitVec 3) :
    cmd = 0b000#3 ∨ cmd = 0b001#3 ∨ cmd = 0b010#3 ∨ cmd = 0b011#3 ∨ cmd = 0b100#3 ∨ cmd = 0b101#3 ∨ cmd = 0b110#3 ∨
      cmd = 0b111#3 := by
  revert cmd
  decide

/-- The row a command selects has that command's code, in every phase. -/
theorem select_cmdCode (cmd : BitVec 3) (p : Phase) (n : Nat) (a b : Operand) :
    (Instr.select cmd p n a b).cmdCode = cmd := by
  obtain rfl | rfl | rfl | rfl | rfl | rfl | rfl | rfl := command_code_cases cmd
  case inr.inr.inl => exact stepIn_cmdCode p
  all_goals rfl

/-- What a command can be refused for is told by its code: an instruction that passes these checks has a next state. -/
theorem exec_next_of_checks {i : Instr} {s : State} (hreserved : ¬ (i.cmdCode = 0b110#3 ∨ i.cmdCode = 0b111#3))
    (hstart : i.cmdCode = 0b001#3 → trialRuns s.block.phase = false)
    (hread : i.cmdCode = 0b011#3 → s.block.phase = .done) : ∃ t, exec i s = .next t := by
  cases i with
  | start n a b =>
    obtain ⟨hrun, -⟩ | ⟨-, -, hexec⟩ | ⟨-, _, hexec⟩ := execStart_cases n a b s
    · exact absurd (hrun.symm.trans (hstart rfl)) (by decide)
    · exact ⟨_, hexec⟩
    · exact ⟨_, hexec⟩
  | readResult => exact ⟨_, exec_readResult_of_done (hread rfl)⟩
  | reserved110 => exact absurd (.inl rfl) hreserved
  | reserved111 => exact absurd (.inr rfl) hreserved
  | nop | stepIdle | stepInit | stepProp | stepFinal | stepDone | readStatus | readState => exact ⟨_, rfl⟩

/-- A presented command whose RSV is 0 runs the row it selects, unless the state is faulted. -/
theorem step_eq_exec_select {s : State} {c : Command} {rest : List HostInput}
    (hin : s.inputs = .command c :: rest) (hmark : s.faultMark = none) (hrsv : c.rsv = 0#5) :
    step s = exec (Instr.select c.cmd s.block.phase c.width c.aBus c.bBus) (s.withInputs rest) := by
  have hdecode : decode s.block.phase c = .ok (Instr.select c.cmd s.block.phase c.width c.aBus c.bBus) := if_pos hrsv
  simp only [step, State.fetch, hin, hmark, hdecode]

theorem startpCommand_of_first_error {W : Nat} {pa : List Char} {e : ErrCode} (pb : List Char)
    (ha : fromPattern W pa.length pa = .error e) : startpCommand W pa pb = .error e := by
  simp only [startpCommand, ha]

theorem startpCommand_of_second_error {W : Nat} {pa pb : List Char} {a : BitVec W} {e : ErrCode}
    (ha : fromPattern W pa.length pa = .ok a) (hb : fromPattern W pa.length pb = .error e) :
    startpCommand W pa pb = .error e := by
  simp only [startpCommand, ha, hb]

/-- Settles O26: after the RSV check the step runs the row the code selects, whose own checks are those of START,
READ_RESULT and the reserved rows; every other command has a next state by `exec_next_of_checks`. -/
theorem firstFailingCheckDecides : Obligations.FirstFailingCheckDecides := by
  unfold Obligations.FirstFailingCheckDecides
  refine ⟨fun s c rest hin hmark => ?_, fun W pa pb e => startpCommand_of_first_error pb,
    fun W pa pb a e => startpCommand_of_second_error⟩
  by_cases hrsv : c.rsv = 0#5
  case neg => rw [if_pos hrsv]; exact step_refused_of_reservedBits hin hmark hrsv
  rw [if_neg (not_not.2 hrsv), step_eq_exec_select hin hmark hrsv]
  split_ifs with hreserved hbusy hnotDone hwidth
  · obtain hcmd | hcmd := hreserved
    all_goals rw [hcmd]; rfl
  · obtain ⟨hcmd, hphase⟩ := hbusy
    rw [hcmd]
    exact exec_start_of_trialRuns _ _ _ ((trialRuns_iff _).2 hphase)
  · obtain ⟨hcmd, hphase⟩ := hnotDone
    rw [hcmd]
    exact exec_readResult_of_not_done hphase
  · obtain ⟨hcmd, hrange⟩ := hwidth
    rw [hcmd]
    exact exec_start_of_bad_width _ _ ((trialRuns_eq_false_iff _).2 fun hphase => hbusy ⟨hcmd, hphase⟩) hrange
  · refine exec_next_of_checks ?_ ?_ ?_
    all_goals rw [select_cmdCode]
    · exact hreserved
    · exact fun hcmd => (trialRuns_eq_false_iff _).2 fun hphase => hbusy ⟨hcmd, hphase⟩
    · exact fun hcmd => by_contra fun hphase => hnotDone ⟨hcmd, hphase⟩

end Sys2Proof.Machine

/-! PROOFS. The statement of 70_reset_and_hazards.md section 1: the reset input. -/

namespace Sys2Proof.Machine

/-! ### Power-on reset (70_reset_and_hazards.md rule R140) -/

/-- A pending reset takes effect whatever the block or the fault mark holds. -/
theorem step_eq_powerOnReset {s : State} {rest : List HostInput} (hin : s.inputs = .reset :: rest) :
    step s = .next (s.withInputs rest).powerOnReset := by
  simp only [step, State.fetch, hin]

theorem Block.powerOn_c_getElem (W : Nat) (k : Fin W) : (Block.powerOn W).c[k] = .U :=
  Vector.getElem_replicate k.isLt

/-- COMPLETE asks for `1 ≤ N`, and reset sets `N` to 0. -/
theorem Block.powerOn_completeBit (W : Nat) : (Block.powerOn W).completeBit = false := by
  have hn : ¬ 1 ≤ (Block.powerOn W).n.val := Nat.not_succ_le_zero 0
  exact Bool.eq_false_iff.2 fun h => hn ((Block.powerOn W).completeBit_iff.1 h).2

/-- Every field of the status word is 0 at power-on (10_state.md rule R33). -/
theorem Block.powerOn_status (W : Nat) : (Block.powerOn W).status = 0x0000#16 := by
  rw [Block.status, powerOn_cyc, powerOn_completeBit, powerOn_err, powerOn_phase]
  rfl

/-- Settles O3: the step is `State.powerOnReset`, whose block is `Block.powerOn`. -/
theorem powerOnResetFromAnyState : Obligations.PowerOnResetFromAnyState := by
  unfold Obligations.PowerOnResetFromAnyState
  intro s rest hin
  exact ⟨(s.withInputs rest).powerOnReset, step_eq_powerOnReset hin, rfl, rfl, rfl, rfl,
    Block.powerOn_c_getElem s.params.wMax, rfl, rfl, rfl, rfl, Block.powerOn_status s.params.wMax, rfl⟩

end Sys2Proof.Machine

/-! PROOFS. The trial invariant of 10_state.md and 41_carry_cycles.md section 3: what one cycle does to it. -/

namespace Sys2Proof.Machine

/-! ### The quantities of the laws (41_carry_cycles.md rules R103, R104, R109) -/

/-- Position `k` leaves `U` one cycle after the run of PROP positions that ends at `k` has been passed. -/
theorem resolutionCycle_eq_runEndingAt_succ {W : Nat} (a b : BitVec W) (k : Nat) :
    resolutionCycle a b k = runEndingAt a b k + 1 := by
  induction k with
  | zero => rfl
  | succ k ih =>
    simp only [resolutionCycle, runEndingAt]
    split
    · rw [ih]
    · rfl

theorem resolutionCycle_pos {W : Nat} (a b : BitVec W) (k : Nat) : 1 ≤ resolutionCycle a b k := by
  rw [resolutionCycle_eq_runEndingAt_succ]
  exact Nat.le_add_left 1 _

theorem resolutionCycle_of_not_differ {W : Nat} {a b : BitVec W} {k : Nat} (h : differ a b k = false) :
    resolutionCycle a b k = 1 := by
  cases k with
  | zero => rfl
  | succ k => simp [resolutionCycle, h]

theorem resolutionCycle_succ_of_differ {W : Nat} {a b : BitVec W} {k : Nat} (h : differ a b (k + 1) = true) :
    resolutionCycle a b (k + 1) = resolutionCycle a b k + 1 := if_pos h

theorem trueCarry_of_not_differ {W : Nat} {a b : BitVec W} {k : Nat} (h : differ a b k = false) :
    trueCarry a b k = a.getLsbD k := by
  cases k with
  | zero =>
    have hab : a.getLsbD 0 = b.getLsbD 0 := by simpa [differ] using h
    simp [trueCarry, hab]
  | succ k => simp [trueCarry, h]

theorem trueCarry_zero_of_differ {W : Nat} {a b : BitVec W} (h : differ a b 0 = true) : trueCarry a b 0 = false := by
  rw [differ] at h
  rw [trueCarry]
  cases ha : a.getLsbD 0 <;> simp_all

theorem trueCarry_succ_of_differ {W : Nat} {a b : BitVec W} {k : Nat} (h : differ a b (k + 1) = true) :
    trueCarry a b (k + 1) = trueCarry a b k := if_pos h

theorem longestRun_le_iff {W : Nat} {a b : BitVec W} {n m : Nat} :
    longestRun a b n ≤ m ↔ ∀ k < n, runEndingAt a b k ≤ m := by
  induction n with
  | zero => simp [longestRun]
  | succ n ih => rw [longestRun, Nat.max_le, ih, Nat.forall_lt_succ_right]

/-- Completion is the cycle in which the last position below `n` is determined. -/
theorem completionCycle_le_iff {W : Nat} {a b : BitVec W} {n m : Nat} (hn : 1 ≤ n) :
    completionCycle a b n ≤ m ↔ ∀ k < n, resolutionCycle a b k ≤ m := by
  cases m with
  | zero =>
    refine iff_of_false (by simp [completionCycle]) fun h => ?_
    exact absurd (h 0 hn) (by simp [resolutionCycle])
  | succ m => simp [completionCycle, resolutionCycle_eq_runEndingAt_succ, Nat.add_comm 1, longestRun_le_iff]

theorem cycleCount_eq_completionCycle_succ {W : Nat} (a b : BitVec W) (n : Nat) :
    cycleCount a b n = completionCycle a b n + 1 := by
  rw [cycleCount, completionCycle, Nat.add_comm 1]

theorem differ_fin {W : Nat} (a b : BitVec W) (k : Fin W) : differ a b k.val = (a[k] ^^ b[k]) := by
  simp [differ]

theorem differ_fin_eq_true_iff {W : Nat} {a b : BitVec W} {k : Fin W} : differ a b k.val = true ↔ a[k] ≠ b[k] := by
  rw [differ_fin, bne_iff_ne]

theorem differ_fin_eq_false_iff {W : Nat} {a b : BitVec W} {k : Fin W} : differ a b k.val = false ↔ a[k] = b[k] := by
  rw [differ_fin, bne_eq_false_iff_eq]

/-! ### The carry entry of a position after `t` cycles -/

/-- The entry that the invariant gives position `k` after `t` cycles (the field `carry` of `Block.TrialInv`). -/
def carryAt {W : Nat} (a b : BitVec W) (t k : Nat) : CarryState :=
  if resolutionCycle a b k ≤ t then carryOf (trueCarry a b k) else .U

theorem carryOf_ne_U (x : Bool) : carryOf x ≠ .U := by cases x <;> simp [carryOf]

theorem carryAt_of_le {W : Nat} {a b : BitVec W} {t k : Nat} (h : resolutionCycle a b k ≤ t) :
    carryAt a b t k = carryOf (trueCarry a b k) := if_pos h

theorem carryAt_of_lt {W : Nat} {a b : BitVec W} {t k : Nat} (h : t < resolutionCycle a b k) :
    carryAt a b t k = .U := if_neg (Nat.not_le.2 h)

theorem carryAt_ne_U_iff {W : Nat} {a b : BitVec W} {t k : Nat} :
    carryAt a b t k ≠ .U ↔ resolutionCycle a b k ≤ t := by
  refine ⟨fun h => Nat.not_lt.1 fun hlt => h (carryAt_of_lt hlt), fun h => ?_⟩
  rw [carryAt_of_le h]
  exact carryOf_ne_U _

/-- A PROP position holds what its lower neighbour held a cycle before. -/
theorem carryAt_succ_of_differ {W : Nat} {a b : BitVec W} {t k : Nat} (h : differ a b (k + 1) = true) :
    carryAt a b (t + 1) (k + 1) = carryAt a b t k := by
  simp only [carryAt, resolutionCycle_succ_of_differ h, trueCarry_succ_of_differ h, Nat.add_le_add_iff_right]

theorem pv_carryAt {W : Nat} (a b : BitVec W) (t k : Nat) :
    pv (carryAt a b t k) = (decide (resolutionCycle a b k < t + 1) && trueCarry a b k) := by
  by_cases h : resolutionCycle a b k ≤ t
  · rw [carryAt_of_le h, decide_eq_true (Nat.lt_succ_of_le h)]
    cases trueCarry a b k <;> rfl
  · rw [carryAt_of_lt (Nat.not_le.1 h), decide_eq_false (by omega)]
    rfl

/-- Position 0, or the position above `j`. -/
theorem fin_eq_zero_or_succ {W : Nat} (k : Fin W) : k.val = 0 ∨ ∃ j : Fin W, j.val + 1 = k.val := by
  obtain h | h := Nat.eq_zero_or_pos k.val
  · exact .inl h
  · exact .inr ⟨⟨k.val - 1, by omega⟩, Nat.sub_add_cancel h⟩

/-- Every entry below `N` is what `t` cycles have made of it. -/
def Block.CarriesAt {W : Nat} (b : Block W) (t : Nat) : Prop :=
  ∀ k : Fin W, k.val < b.n.val → b.c[k] = carryAt b.a b.b t k.val

/-- One cycle of carry resolution brings each entry below `N` from cycle `t` to cycle `t + 1`. -/
theorem Block.CarriesAt.resolve {W : Nat} {b : Block W} {t : Nat} (h : b.CarriesAt t) {k : Fin W}
    (hk : k.val < b.n.val) : b.resolve[k] = carryAt b.a b.b (t + 1) k.val := by
  by_cases hc : b.c[k] = .U
  case neg =>
    have hr : resolutionCycle b.a b.b k.val ≤ t := carryAt_ne_U_iff.1 (h k hk ▸ hc)
    rw [resolve_kept hc, h k hk, carryAt_of_le hr, carryAt_of_le (Nat.le_succ_of_le hr)]
  by_cases hab : b.a[k] = b.b[k]
  · have hd := differ_fin_eq_false_iff.2 hab
    have hr := resolutionCycle_of_not_differ hd
    have hbit : b.a.getLsbD k.val = b.a[k] := BitVec.getLsbD_eq_getElem k.isLt
    rw [carryAt_of_le (by omega), trueCarry_of_not_differ hd, hbit]
    cases ha : b.a[k] with
    | true => exact (resolve_resolvesTo b).gen k hk hc ha (hab ▸ ha)
    | false => exact (resolve_resolvesTo b).kill k hk hc ha (hab ▸ ha)
  · have hd := differ_fin_eq_true_iff.2 hab
    obtain h0 | ⟨j, hj⟩ := fin_eq_zero_or_succ k
    · rw [(resolve_resolvesTo b).low k hk hc hab h0, h0, carryAt_of_le (Nat.le_add_left 1 t),
        trueCarry_zero_of_differ (h0 ▸ hd)]
      rfl
    · rw [(resolve_resolvesTo b).copied k j hk hc hab hj, h j (by omega), ← hj, carryAt_succ_of_differ (hj ▸ hd)]

/-- The carry-in that a cycle uses at position `k`, as a bit. -/
theorem Block.CarriesAt.pv_cin {W : Nat} {b : Block W} {t : Nat} (h : b.CarriesAt t) {k : Fin W}
    (hk : k.val < b.n.val) :
    pv (cin k b.c) =
      (decide (1 ≤ k.val) && decide (resolutionCycle b.a b.b (k.val - 1) < t + 1) && trueCarry b.a b.b (k.val - 1)) := by
  obtain h0 | ⟨j, hj⟩ := fin_eq_zero_or_succ k
  · rw [cin_zero _ h0, h0]
    rfl
  · rw [cin_succ _ hj, h j (by omega), pv_carryAt, ← hj]
    simp

theorem Block.CarriesAt.sumUpdate {W : Nat} {b : Block W} {t : Nat} (h : b.CarriesAt t) {k : Fin W}
    (hk : k.val < b.n.val) :
    b.sumUpdate[k] = ((b.a[k] ^^ b.b[k]) ^^
      (decide (1 ≤ k.val) && decide (resolutionCycle b.a b.b (k.val - 1) < t + 1) &&
        trueCarry b.a b.b (k.val - 1))) := by
  rw [sumUpdate_getElem, if_pos hk, h.pv_cin hk]

/-- The completion test at the end of cycle `t + 1` is the comparison with the completion cycle. -/
theorem Block.CarriesAt.completed_resolve_iff {W : Nat} {b : Block W} {t : Nat} (h : b.CarriesAt t)
    (hn : 1 ≤ b.n.val) : Completed b.resolve b.n.val ↔ completionCycle b.a b.b b.n.val ≤ t + 1 := by
  rw [completionCycle_le_iff hn]
  constructor
  · intro hc k hk
    exact carryAt_ne_U_iff.1 (h.resolve (k := ⟨k, by omega⟩) hk ▸ hc ⟨k, by omega⟩ hk)
  · intro hr k hk
    rw [h.resolve hk]
    exact carryAt_ne_U_iff.2 (hr k.val hk)

/-! ### The cycles keep the trial invariant -/

theorem Block.TrialInv.carriesAt {W : Nat} {b : Block W} (h : b.TrialInv) (hp : b.phase ≠ .idle) :
    b.CarriesAt b.cyc := h.carry hp

theorem Block.TrialInv.one_le_n {W : Nat} {b : Block W} (h : b.TrialInv) (hp : b.phase ≠ .idle) : 1 ≤ b.n.val :=
  Nat.one_le_iff_ne_zero.2 fun hn => hp (h.idle_iff.2 hn)

theorem Block.TrialInv.cyc_lt_completionCycle {W : Nat} {b : Block W} (h : b.TrialInv)
    (hp : b.phase = .init ∨ b.phase = .prop) : b.cyc < completionCycle b.a b.b b.n.val := by
  obtain hp | hp := hp
  · rw [h.cyc_init hp, completionCycle]
    omega
  · exact (h.cyc_prop hp).2

theorem Block.carryCycle_phase_ne {W : Nat} (b : Block W) {p : Phase} (hf : p ≠ .final) (hp : p ≠ .prop) :
    b.carryCycle.phase ≠ p := by
  rw [b.carryCycle_phase]
  split
  · exact hf.symm
  · exact hp.symm

theorem Block.CarriesAt.lt_of_carryCycle_prop {W : Nat} {b : Block W} {t : Nat} (h : b.CarriesAt t) (hn : 1 ≤ b.n.val)
    (hp : b.carryCycle.phase = .prop) : t + 1 < completionCycle b.a b.b b.n.val :=
  Nat.not_le.1 fun hle => by
    cases (carryCycle_phase_of_completed ((h.completed_resolve_iff hn).2 hle)).symm.trans hp

theorem Block.CarriesAt.le_of_carryCycle_final {W : Nat} {b : Block W} {t : Nat} (h : b.CarriesAt t) (hn : 1 ≤ b.n.val)
    (hp : b.carryCycle.phase = .final) : completionCycle b.a b.b b.n.val ≤ t + 1 :=
  (h.completed_resolve_iff hn).1 <| by_contra fun hc => by
    cases (carryCycle_phase_of_not_completed hc).symm.trans hp

theorem Block.TrialInv.carryCycle {W : Nat} {b : Block W} (h : b.TrialInv)
    (hp : b.phase = .init ∨ b.phase = .prop) : b.carryCycle.TrialInv := by
  have hloaded : b.phase ≠ .idle := by obtain hp | hp := hp <;> simp [hp]
  have hn := h.one_le_n hloaded
  have hc := h.carriesAt hloaded
  have hbefore := h.cyc_lt_completionCycle hp
  exact {
    idle_iff := iff_of_false (b.carryCycle_phase_ne (by simp) (by simp)) (Nat.ne_of_gt hn)
    err_legal := h.err_legal
    err_idle := fun _ => h.err_idle hloaded
    cyc_idle := fun hi => absurd hi (b.carryCycle_phase_ne (by simp) (by simp))
    cyc_init := fun hi => absurd hi (b.carryCycle_phase_ne (by simp) (by simp))
    cyc_prop := fun hprop => ⟨Nat.le_add_left 1 b.cyc, hc.lt_of_carryCycle_prop hn hprop⟩
    cyc_final := fun hfinal => Nat.le_antisymm hbefore (hc.le_of_carryCycle_final hn hfinal)
    cyc_done := fun hd => absurd hd (b.carryCycle_phase_ne (by simp) (by simp))
    unused := fun _ k hk => by
      obtain ⟨ha, hb, hs, hu⟩ := h.unused hloaded k hk
      exact ⟨ha, hb, ((sumUpdate_sumsTo b).unused k hk).trans hs, ((resolve_resolvesTo b).unused k hk).trans hu⟩
    carry := fun _ _ hk => hc.resolve hk
    sum_init := fun hi => absurd hi (b.carryCycle_phase_ne (by simp) (by simp))
    sum := fun _ _ _ hk => hc.sumUpdate hk }

theorem Block.TrialInv.finalCycle {W : Nat} {b : Block W} (h : b.TrialInv) (hp : b.phase = .final) :
    b.finalCycle.TrialInv := by
  have hloaded : b.phase ≠ .idle := by simp [hp]
  have hn := h.one_le_n hloaded
  have hc := h.carriesAt hloaded
  have hcyc := h.cyc_final hp
  exact {
    idle_iff := iff_of_false (by simp) (Nat.ne_of_gt hn)
    err_legal := h.err_legal
    err_idle := fun _ => h.err_idle hloaded
    cyc_idle := fun hi => by simp at hi
    cyc_init := fun hi => by simp at hi
    cyc_prop := fun hi => by simp at hi
    cyc_final := fun hi => by simp at hi
    cyc_done := fun _ => by
      rw [b.finalCycle_cyc, hcyc]
      exact (cycleCount_eq_completionCycle_succ b.a b.b b.n.val).symm
    unused := fun _ k hk => by
      obtain ⟨ha, hb, hs, hu⟩ := h.unused hloaded k hk
      exact ⟨ha, hb, ((sumUpdate_sumsTo b).unused k hk).trans hs, hu⟩
    carry := fun _ k hk => by
      have hr : resolutionCycle b.a b.b k.val ≤ b.cyc := (completionCycle_le_iff hn).1 hcyc.ge k.val hk
      exact (hc k hk).trans ((carryAt_of_le hr).trans (carryAt_of_le (Nat.le_succ_of_le hr)).symm)
    sum_init := fun hi => by simp at hi
    sum := fun _ _ _ hk => hc.sumUpdate hk }

theorem Block.TrialInv.advance {W : Nat} {b : Block W} (h : b.TrialInv) : b.advance.TrialInv := by
  obtain ⟨-, heq⟩ | ⟨hp, heq⟩ | ⟨hp, heq⟩ := b.advance_cases
  all_goals rw [heq]
  · exact h
  · exact h.carryCycle hp
  · exact h.finalCycle hp

/-! ### Reset, the rejected START and the accepted START give the trial invariant -/

/-- With no trial loaded the invariant asks only for the values that IDLE goes with. -/
theorem Block.trialInv_of_idle {W : Nat} {b : Block W} (hphase : b.phase = .idle) (hn : b.n.val = 0) (hcyc : b.cyc = 0)
    (herr : b.err = .none ∨ b.err = .cfgWidthRange) : b.TrialInv where
  idle_iff := iff_of_true hphase hn
  err_legal := herr
  err_idle hp := absurd hphase hp
  cyc_idle _ := hcyc
  cyc_init hp := by cases hphase.symm.trans hp
  cyc_prop hp := by cases hphase.symm.trans hp
  cyc_final hp := by cases hphase.symm.trans hp
  cyc_done hp := by cases hphase.symm.trans hp
  unused hp := absurd hphase hp
  carry hp := absurd hphase hp
  sum_init hp := by cases hphase.symm.trans hp
  sum hp := absurd hphase hp

theorem Block.powerOn_trialInv (W : Nat) : (Block.powerOn W).TrialInv :=
  Block.trialInv_of_idle rfl rfl rfl (.inl rfl)

theorem Block.rejectTrial_trialInv {W : Nat} (b : Block W) : (b.rejectTrial .cfgWidthRange).TrialInv :=
  Block.trialInv_of_idle rfl rfl rfl (.inr rfl)

theorem loadBus_getElem_of_ge {W : Nat} {n : Fin (W + 1)} (bus : BitVec W) {k : Fin W} (hk : n.val ≤ k.val) :
    (loadBus n bus)[k] = false := by
  rw [loadBus_getElem, if_neg (Nat.not_lt.2 hk)]

theorem Block.load_trialInv {W : Nat} (old : Block W) {n : Fin (W + 1)} (x y : BitVec W) (hn : 1 ≤ n.val) :
    (old.load n x y).TrialInv where
  idle_iff := iff_of_false (by simp) (Nat.ne_of_gt hn)
  err_legal := .inl rfl
  err_idle _ := rfl
  cyc_idle _ := rfl
  cyc_init _ := rfl
  cyc_prop hp := by cases hp
  cyc_final hp := by cases hp
  cyc_done hp := by cases hp
  unused _ k hk := ⟨loadBus_getElem_of_ge x hk, loadBus_getElem_of_ge y hk, old.load_s_getElem n x y k,
    old.load_c_getElem n x y k⟩
  carry _ k _ := (old.load_c_getElem n x y k).trans (carryAt_of_lt (resolutionCycle_pos _ _ k.val)).symm
  sum_init _ := rfl
  sum _ hcyc := absurd hcyc (Nat.not_succ_le_zero 0)

/-! ### What an instruction does to the block -/

/-- A START that has a next state was issued while no trial ran, and rejects or loads a trial. -/
theorem exec_start_next_cases {s t : State} {n : Nat} {a b : Operand} (h : exec (.start n a b) s = .next t) :
    trialRuns s.block.phase = false ∧ ∃ blk : Block s.params.wMax, t = s.withBlock blk ∧
      (blk = s.block.rejectTrial .cfgWidthRange ∨
        ∃ (m : Fin (s.params.wMax + 1)) (x y : BitVec s.params.wMax), 1 ≤ m.val ∧ blk = s.block.load m x y) := by
  obtain ⟨-, hexec⟩ | ⟨hquiet, -, hexec⟩ | ⟨hquiet, hwidth, hexec⟩ := execStart_cases n a b s
  all_goals cases hexec.symm.trans h
  · exact ⟨hquiet, _, rfl, .inl rfl⟩
  · exact ⟨hquiet, _, rfl, .inr ⟨_, _, _, hwidth.1, rfl⟩⟩

/-- An instruction other than START that the decode can select in the current phase leaves the block alone or takes it
one STEP further. -/
theorem exec_next_advance_cases {i : Instr} {s t : State} (hi : ∀ n a b, i ≠ .start n a b)
    (hfits : i.fits s.block.phase = true) (h : exec i s = .next t) :
    ∃ blk : Block s.params.wMax, t = { s with block := blk, returned := t.returned } ∧
      (blk = s.block ∨ blk = s.block.advance) := by
  cases i with
  | start n a b => exact absurd rfl (hi n a b)
  | nop | stepIdle | stepDone | readStatus | readState => cases h; exact ⟨s.block, rfl, .inl rfl⟩
  | stepInit | stepProp | stepFinal =>
    cases h
    have hphase := of_decide_eq_true hfits
    refine ⟨_, rfl, .inr ?_⟩
    simp only [Block.advance, hphase]
  | readResult =>
    obtain ⟨-, hr⟩ | ⟨-, hr⟩ := execReadResult_cases s
    all_goals cases hr.symm.trans h
    exact ⟨s.block, rfl, .inl rfl⟩
  | reserved110 | reserved111 => cases h

theorem stepIn_fits (p : Phase) : (Instr.stepIn p).fits p = true := by
  cases p <;> rfl

/-- The decode selects only instructions that fit the phase (30_encoding.md rule R61). -/
theorem select_fits (cmd : BitVec 3) (p : Phase) (n : Nat) (a b : Operand) :
    (Instr.select cmd p n a b).fits p = true := by
  obtain rfl | rfl | rfl | rfl | rfl | rfl | rfl | rfl := command_code_cases cmd
  case inr.inr.inl => exact stepIn_fits p
  all_goals rfl

/-! ### The invariant of the machine -/

theorem State.Inv.withInputs {s : State} (h : s.Inv) (is : List HostInput) : (s.withInputs is).Inv :=
  ⟨h.params_valid, h.trial, h.unmarked⟩

theorem exec_keeps_inv {i : Instr} {s t : State} (hfits : i.fits s.block.phase = true) (hs : s.Inv)
    (h : exec i s = .next t) : t.Inv := by
  by_cases hi : ∀ n a b, i ≠ .start n a b
  · obtain ⟨blk, ht, hblk⟩ := exec_next_advance_cases hi hfits h
    rw [ht]
    refine ⟨hs.params_valid, ?_, hs.unmarked⟩
    obtain rfl | rfl := hblk
    · exact hs.trial
    · exact hs.trial.advance
  · push Not at hi
    obtain ⟨n, a, b, rfl⟩ := hi
    obtain ⟨-, blk, rfl, hblk⟩ := exec_start_next_cases h
    refine ⟨hs.params_valid, ?_, hs.unmarked⟩
    obtain rfl | ⟨m, x, y, hm, rfl⟩ := hblk
    · exact s.block.rejectTrial_trialInv
    · exact s.block.load_trialInv x y hm

/-- All a step that has a next state can have done. -/
theorem step_next_cases {s t : State} (h : step s = .next t) :
    (s.inputs = [] ∧ t = s) ∨
    (∃ rest, s.inputs = .reset :: rest ∧ t = (s.withInputs rest).powerOnReset) ∨
    (∃ c rest, s.inputs = .command c :: rest ∧ s.faultMark = none ∧
      exec (Instr.select c.cmd s.block.phase c.width c.aBus c.bBus) (s.withInputs rest) = .next t) := by
  obtain ⟨hin, hstep⟩ | ⟨rest, hin, hstep⟩ | ⟨c, rest, hin, hcommand⟩ := step_cases s
  · cases hstep.symm.trans h
    exact .inl ⟨hin, rfl⟩
  · cases hstep.symm.trans h
    exact .inr (.inl ⟨rest, hin, rfl⟩)
  · obtain ⟨f, -, hstep⟩ | ⟨-, -, hstep⟩ | ⟨hmark, -, hstep⟩ := hcommand
    · cases hstep.symm.trans h
    · cases hstep.symm.trans h
    · exact .inr (.inr ⟨c, rest, hin, hmark, hstep.symm.trans h⟩)

/-- Settles O39: a reset gives `Block.powerOn`, and a command runs a row that fits the phase (`exec_keeps_inv`). -/
theorem trialInvariantKeptByStep : Obligations.TrialInvariantKeptByStep := by
  unfold Obligations.TrialInvariantKeptByStep
  intro s t hs h
  obtain ⟨-, rfl⟩ | ⟨rest, -, rfl⟩ | ⟨c, rest, -, -, hexec⟩ := step_next_cases h
  · exact hs
  · exact ⟨hs.params_valid, Block.powerOn_trialInv _, rfl⟩
  · exact exec_keeps_inv (s := s.withInputs rest) (select_fits c.cmd s.block.phase c.width c.aBus c.bBus)
      (hs.withInputs rest) hexec

theorem State.powerOn_inv {p : Params} (hp : p.valid = true) : (State.powerOn p).Inv :=
  ⟨hp, Block.powerOn_trialInv p.wMax, rfl⟩

/-- Settles O38: the reset state is the power-on state of the default parameters, which are legal. -/
theorem trialInvariantAtReset : Obligations.TrialInvariantAtReset := by
  unfold Obligations.TrialInvariantAtReset
  exact State.powerOn_inv Config.params_valid

end Sys2Proof.Machine

/-! PROOFS. The statements of 20_memory.md, 60_exceptions.md section 2 and 70_reset_and_hazards.md section 2: what one
step takes, keeps and can answer, and the checked register accesses. -/

namespace Sys2Proof.Machine

/-! ### One step (20_memory.md rules R44, R49) -/

/-- Settles O1: in an unmarked state `step` is the decode under the current phase, followed by `exec`. -/
theorem stepRunsDecodedInstruction : Obligations.StepRunsDecodedInstruction := by
  unfold Obligations.StepRunsDecodedInstruction
  intro s c rest i hin hmark hdecode
  simp only [step, State.fetch, hin, hmark, hdecode]

/-- Settles O2: what a command adds to the values received is `exec_next_frame`. -/
theorem stepTakesInputsInOrder : Obligations.StepTakesInputsInOrder := by
  unfold Obligations.StepTakesInputsInOrder
  intro s t h
  obtain ⟨hin, rfl⟩ | ⟨rest, hin, rfl⟩ | ⟨c, rest, hin, -, hexec⟩ := step_next_cases h
  · exact ⟨by rw [hin, List.tail_nil], fun _ => rfl, fun _ _ => rfl, [], Nat.zero_le 1, (List.append_nil _).symm⟩
  · exact ⟨by rw [hin]; rfl, by simp [hin], fun _ _ => rfl, [], Nat.zero_le 1, (List.append_nil _).symm⟩
  · obtain ⟨-, hinputs, -, hreturned⟩ := exec_next_frame hexec
    refine ⟨by rw [hin, hinputs]; rfl, by simp [hin], by simp [hin], ?_⟩
    obtain hsame | ⟨v, hone⟩ := hreturned
    · exact ⟨[], Nat.zero_le 1, hsame.trans (List.append_nil _).symm⟩
    · exact ⟨[v], Nat.le_refl 1, hone⟩

theorem exec_ne_fault (i : Instr) (s : State) (f : Fault) : exec i s ≠ .fault f := by
  intro h
  cases i with
  | start n a b =>
    obtain ⟨-, hexec⟩ | ⟨-, -, hexec⟩ | ⟨-, _, hexec⟩ := execStart_cases n a b s
    all_goals cases hexec.symm.trans h
  | readResult =>
    obtain ⟨-, hexec⟩ | ⟨-, hexec⟩ := execReadResult_cases s
    all_goals cases hexec.symm.trans h
  | nop | stepIdle | stepInit | stepProp | stepFinal | stepDone | readStatus | readState | reserved110 | reserved111 =>
    cases h

/-- The only fault a step answers is the mark it finds. -/
theorem step_ne_fault_of_unmarked {s : State} (hmark : s.faultMark = none) (f : Fault) : step s ≠ .fault f := by
  intro h
  obtain ⟨-, hstep⟩ | ⟨rest, -, hstep⟩ | ⟨c, rest, -, hcommand⟩ := step_cases s
  · cases hstep.symm.trans h
  · cases hstep.symm.trans h
  · obtain ⟨g, hg, -⟩ | ⟨-, -, hstep⟩ | ⟨-, -, hstep⟩ := hcommand
    · cases hmark.symm.trans hg
    · cases hstep.symm.trans h
    · exact exec_ne_fault _ _ f (hstep.symm.trans h)

theorem step_keeps_unmarked {s t : State} (hmark : s.faultMark = none) (h : step s = .next t) :
    t.faultMark = none := by
  obtain ⟨-, rfl⟩ | ⟨rest, -, rfl⟩ | ⟨c, rest, -, -, hexec⟩ := step_next_cases h
  · exact hmark
  · rfl
  · obtain ⟨-, -, hkept, -⟩ := exec_next_frame hexec
    exact hkept.trans hmark

/-- Settles O5: no arm of `exec` faults, and none writes the mark. -/
theorem unmarkedStepNeverFaults : Obligations.UnmarkedStepNeverFaults := by
  unfold Obligations.UnmarkedStepNeverFaults
  exact fun s hmark => ⟨step_ne_fault_of_unmarked hmark, fun t => step_keeps_unmarked hmark⟩

/-- Settles O58: no arm of `exec` writes the parameters, and neither does the reset input. -/
theorem parametersNeverChange : Obligations.ParametersNeverChange := by
  unfold Obligations.ParametersNeverChange
  intro s t h
  obtain ⟨-, rfl⟩ | ⟨rest, -, rfl⟩ | ⟨c, rest, -, -, hexec⟩ := step_next_cases h
  · rfl
  · rfl
  · obtain ⟨hparams, -⟩ := exec_next_frame hexec
    exact hparams

/-- Settles O40: by induction on how the state was reached; the invariant holds at power-on and every step keeps it. -/
theorem reachableStatesNeverFault : Obligations.ReachableStatesNeverFault := by
  unfold Obligations.ReachableStatesNeverFault
  intro s hs
  have hinv : s.Inv := by
    induction hs with
    | powerOn hp => exact State.powerOn_inv hp
    | step is _ hstep ih => exact trialInvariantKeptByStep _ _ (ih.withInputs is) hstep
  exact ⟨hinv, fun is f => step_ne_fault_of_unmarked (hinv.withInputs is).unmarked f⟩

/-! ### The fault mark (60_exceptions.md rule R127) -/

/-- Settles O4: `step` answers a command with the mark before it decodes it, and only the reset input clears the mark. -/
theorem faultMarkHoldsUntilReset : Obligations.FaultMarkHoldsUntilReset := by
  unfold Obligations.FaultMarkHoldsUntilReset
  intro s f hmark
  refine ⟨fun c rest hin => ?_, fun hin => ?_, fun rest hin => ⟨_, step_eq_powerOnReset hin, rfl⟩⟩
  · simp only [step, State.fetch, hin, hmark]
  · simp only [step, State.fetch, hin]

theorem State.markFault_of_unmarked {s : State} (f : Fault) (hmark : s.faultMark = none) :
    s.markFault f = { s with faultMark := some f } := by
  simp only [State.markFault, hmark]

theorem State.harnessWriteCarry_of_ge {s : State} {k : Nat} (code : BitVec 2) (hk : s.params.wMax ≤ k) :
    s.harnessWriteCarry k code = s.markFault .bounds := dif_neg (Nat.not_lt.2 hk)

theorem State.harnessWriteCarry_of_illegal {s : State} {k : Nat} {code : BitVec 2} (hk : k < s.params.wMax)
    (hcode : CarryState.ofRails? code = none) : s.harnessWriteCarry k code = s.markFault .illegalRail := by
  simp only [State.harnessWriteCarry, dif_pos hk, hcode]

theorem State.harnessWriteCarry_of_legal {s : State} {k : Nat} {code : BitVec 2} {x : CarryState}
    (hk : k < s.params.wMax) (hcode : CarryState.ofRails? code = some x) :
    s.harnessWriteCarry k code = s.withBlock { s.block with c := s.block.c.set k x hk } := by
  simp only [State.harnessWriteCarry, dif_pos hk, hcode]

/-- Settles O8: the three answers of the write, by its index check and then the decode of its code. -/
theorem harnessCarryWriteMarksFaults : Obligations.HarnessCarryWriteMarksFaults := by
  unfold Obligations.HarnessCarryWriteMarksFaults
  intro s k code hmark
  refine ⟨fun hk => ?_, fun hk hcode => ?_, fun x hk hcode => ⟨s.block.c.set k x hk, ?_, fun j => ?_⟩⟩
  · rw [State.harnessWriteCarry_of_ge code hk, State.markFault_of_unmarked _ hmark]
  · rw [State.harnessWriteCarry_of_illegal hk (hcode ▸ ofRails?_illegal), State.markFault_of_unmarked _ hmark]
  · exact State.harnessWriteCarry_of_legal hk (hcode ▸ ofRails?_rails x)
  · simp only [Fin.getElem_fin, Vector.getElem_set, eq_comm]

/-! ### Checked register accesses (20_memory.md rules R40, R44) -/

theorem writeBit_of_lt {W : Nat} (x : BitVec W) {k : Nat} (v : Bool) (hk : k < W) :
    ∃ y, writeBit x k v = .ok y ∧ ∀ j : Nat, y.getLsbD j = if j = k then v else x.getLsbD j := by
  obtain ⟨y, hy⟩ : ∃ y, writeBit x k v = .ok y := ⟨_, if_pos hk⟩
  refine ⟨y, hy, fun j => ?_⟩
  by_cases hj : j < W
  · rw [BitVec.getLsbD_eq_getElem hj, BitVec.getLsbD_eq_getElem hj]
    exact writeBit_getElem hy ⟨j, hj⟩
  · have hne : j ≠ k := by omega
    rw [if_neg hne, BitVec.getLsbD_of_ge y j (Nat.not_lt.1 hj), BitVec.getLsbD_of_ge x j (Nat.not_lt.1 hj)]

/-- Settles O9: set and clear are the one checked write, at 1 and at 0. -/
theorem bitVectorAccessIsBoundsChecked : Obligations.BitVectorAccessIsBoundsChecked := by
  unfold Obligations.BitVectorAccessIsBoundsChecked
  intro W x k
  refine ⟨fun hk => ⟨getBit_of_ge x k hk, writeBit_of_ge x k true hk, writeBit_of_ge x k false hk⟩, fun hk => ⟨?_, ?_⟩⟩
  · rw [BitVec.getLsbD_eq_getElem hk]
    exact getBit_of_lt x ⟨k, hk⟩
  · exact ⟨writeBit_of_lt x true hk, writeBit_of_lt x false hk⟩

end Sys2Proof.Machine

/-! PROOFS. The statements of 30_encoding.md sections 1, 3, 5 and 6: decode and encode, the command word, the opcode
table, packed carry codes, and STARTP. -/

namespace Sys2Proof.Machine

/-! ### Decode and encode (30_encoding.md rules R60, R61) -/

/-- The code and the fields of an instruction select it again in every phase that it fits. -/
theorem select_encode {i : Instr} {p : Phase} (hfits : i.fits p = true) :
    Instr.select i.cmdCode p i.widthField i.buses.1 i.buses.2 = i := by
  cases i with
  | stepIdle | stepInit | stepProp | stepFinal | stepDone => cases of_decide_eq_true hfits; rfl
  | nop | start | readResult | readStatus | readState | reserved110 | reserved111 => rfl

theorem decode_encode {i : Instr} {p : Phase} (hfits : i.fits p = true) : decode p (encode i) = .ok i :=
  (if_pos rfl).trans (congrArg Except.ok (select_encode hfits))

theorem decode_eq_ok_iff {p : Phase} {c : Command} {i : Instr} :
    decode p c = .ok i ↔ c.rsv = 0#5 ∧ Instr.select c.cmd p c.width c.aBus c.bBus = i := by
  by_cases hrsv : c.rsv = 0#5
  · simp [decode, hrsv]
  · simp [decode, hrsv]

/-- Settles O12: the row a command selects fits the phase and has the command's code, and START keeps every field. -/
theorem encodeOfDecodeKeepsCommand : Obligations.EncodeOfDecodeKeepsCommand := by
  unfold Obligations.EncodeOfDecodeKeepsCommand
  intro p c i h
  obtain ⟨hrsv, rfl⟩ := decode_eq_ok_iff.1 h
  refine ⟨select_fits _ _ _ _ _, select_cmdCode _ _ _ _ _, hrsv.symm, fun hcmd => ?_⟩
  cases c
  subst hcmd hrsv
  rfl

/-! ### The command word (30_encoding.md rule R60) -/

theorem word_cmdField (c : Command) : c.word.extractLsb' 0 3 = c.cmd := by
  ext k hk
  simp [Command.word_getLsbD, hk]

theorem word_rsvField (c : Command) : c.word.extractLsb' 3 5 = c.rsv := by
  ext k hk
  have hk8 : 3 + k < 8 := by omega
  simp [Command.word_getLsbD, hk8, BitVec.getLsbD_eq_getElem hk]

theorem word_widthField {c : Command} (h : c.packable = true) : (c.word.extractLsb' 8 8).toNat = c.width := by
  have hfield : c.word.extractLsb' 8 8 = BitVec.ofNat 8 c.width := by
    ext k hk
    have hk3 : ¬ 8 + k < 3 := by omega
    simp [Command.word_getLsbD, hk3, hk]
  rw [hfield, BitVec.toNat_ofNat]
  exact Nat.mod_eq_of_lt (of_decide_eq_true h)

theorem ofWord_word {c : Command} (h : c.packable = true) : Command.ofWord c.word c.aBus c.bBus = c := by
  rw [Command.ofWord, word_cmdField, word_rsvField, word_widthField h]

theorem word_ofWord (w : BitVec 16) (a b : Operand) : (Command.ofWord w a b).word = w := by
  ext k hk
  rw [← BitVec.getLsbD_eq_getElem, ← BitVec.getLsbD_eq_getElem, Command.word_getLsbD]
  simp only [Command.ofWord, BitVec.ofNat_toNat, BitVec.setWidth_eq, BitVec.getLsbD_extractLsb']
  split_ifs with h3 h8
  · simp [h3]
  · have hk5 : k - 3 < 5 := by omega
    simp [hk5, Nat.add_sub_cancel' (Nat.not_lt.1 h3)]
  · have hk8 : k - 8 < 8 := by omega
    simp [hk8, Nat.add_sub_cancel' (Nat.not_lt.1 h8)]

theorem ofWord_packable (w : BitVec 16) (a b : Operand) : (Command.ofWord w a b).packable = true :=
  decide_eq_true (BitVec.isLt _)

/-- Settles O10: the three fields, and the two directions of the round trip. -/
theorem commandWordRoundTrip : Obligations.CommandWordRoundTrip := by
  unfold Obligations.CommandWordRoundTrip
  exact ⟨fun c h => ⟨word_cmdField c, word_rsvField c, word_widthField h⟩,
    fun w a b => ⟨word_ofWord w a b, ofWord_packable w a b⟩, fun c => ofWord_word⟩

theorem encode_packable {i : Instr} (h : i.wellFormed = true) : (encode i).packable = true := by
  cases i with
  | start n a b => exact h
  | nop | stepIdle | stepInit | stepProp | stepFinal | stepDone | readResult | readStatus | readState | reserved110
  | reserved111 => rfl

/-- Settles O11: through the 16-bit word a packable record comes back whole (`ofWord_word`). -/
theorem decodeOfEncodeIsIdentity : Obligations.DecodeOfEncodeIsIdentity := by
  unfold Obligations.DecodeOfEncodeIsIdentity
  intro i p hfits
  refine ⟨decode_encode hfits, fun hwf => ?_⟩
  rw [ofWord_word (encode_packable hwf)]
  exact decode_encode hfits

/-- Settles O14: six words, each decoded. -/
theorem writtenWordsDecode : Obligations.WrittenWordsDecode := by
  unfold Obligations.WrittenWordsDecode
  decide

/-! ### The opcode table (30_encoding.md rule R61) -/

theorem phase_ofCode?_code (p : Phase) : Phase.ofCode? p.code = some p := by
  cases p <;> rfl

theorem decodeWord_phaseField (cmd code : BitVec 3) : (decodeWord cmd code).extractLsb' 0 3 = code := by
  revert cmd code
  decide

theorem decodeWord_cmdField (cmd code : BitVec 3) : (decodeWord cmd code).extractLsb' 3 3 = cmd := by
  revert cmd code
  decide

/-- A decode word that can occur falls in the row that the decoder selects. -/
theorem decodeRow_decodeWord (cmd : BitVec 3) (p : Phase) (n : Nat) (a b : Operand) :
    decodeRow (decodeWord cmd p.code) n a b = some (Instr.select cmd p n a b) := by
  simp only [decodeRow, decodeWord_phaseField, decodeWord_cmdField, phase_ofCode?_code]

theorem select_mnemonic (cmd : BitVec 3) (p : Phase) (n : Nat) (a b : Operand) :
    (Instr.select cmd p n a b).mnemonic = (Instr.select cmd p 0 0 0).mnemonic := by
  obtain rfl | rfl | rfl | rfl | rfl | rfl | rfl | rfl := command_code_cases cmd
  all_goals rfl

/-- WIDTH and the buses do not tell the row. -/
theorem decodeRow_mnemonic (dw : BitVec 6) (n : Nat) (a b : Operand) :
    (decodeRow dw n a b).map Instr.mnemonic = (decodeRow dw 0 0 0).map Instr.mnemonic := by
  unfold decodeRow
  cases Phase.ofCode? (dw.extractLsb' 0 3) with
  | some p => exact congrArg some (select_mnemonic _ p n a b)
  | none =>
    by_cases hstep : dw.extractLsb' 3 3 = 0b010#3
    · simp only [if_pos hstep]
    · simp only [if_neg hstep, Option.map_some, select_mnemonic _ .idle n a b]

/-- The rows that take each of the 64 decode words. -/
theorem opcodeTable_filter_takes (dw : BitVec 6) :
    (opcodeTable.filter fun r => r.takes dw).map OpcodeRow.mnemonic =
      ((decodeRow dw 0 0 0).map Instr.mnemonic).toList := by
  revert dw
  decide

theorem decodeRow_eq_none_iff (dw : BitVec 6) (n : Nat) (a b : Operand) :
    decodeRow dw n a b = none ↔ dw = 0b010101#6 ∨ dw = 0b010110#6 ∨ dw = 0b010111#6 := by
  rw [← Option.map_eq_none_iff (f := Instr.mnemonic), decodeRow_mnemonic, Option.map_eq_none_iff]
  revert dw
  decide

/-- Settles O13: the row does not depend on WIDTH and the buses, so the 64 decode words decide it. -/
theorem decodeWordFallsInOneRow : Obligations.DecodeWordFallsInOneRow := by
  unfold Obligations.DecodeWordFallsInOneRow
  refine ⟨fun dw n a b i h => ?_, decodeRow_eq_none_iff, fun dw h => ?_, fun p c hrsv => ?_⟩
  · rw [opcodeTable_filter_takes, ← decodeRow_mnemonic dw n a b, h]
    rfl
  · rw [← List.map_eq_nil_iff (f := OpcodeRow.mnemonic), opcodeTable_filter_takes,
      (decodeRow_eq_none_iff dw 0 0 0).2 h]
    rfl
  · exact ⟨_, decode_eq_ok_iff.2 ⟨hrsv, rfl⟩, decodeRow_decodeWord c.cmd p c.width c.aBus c.bBus⟩

/-! ### Packed carry codes (30_encoding.md rules R56, R67) -/

theorem ofRails?_eq_none_iff (r : BitVec 2) : CarryState.ofRails? r = none ↔ r = 0b11#2 := by
  revert r
  decide

theorem packCarry_cons_head (r : BitVec 2) (rs : List (BitVec 2)) : BitVec.ofNat 2 (packCarry (r :: rs)) = r := by
  have hr : r.toNat < 4 := r.isLt
  apply BitVec.eq_of_toNat_eq
  rw [packCarry, BitVec.toNat_ofNat]
  omega

theorem packCarry_cons_tail (r : BitVec 2) (rs : List (BitVec 2)) : packCarry (r :: rs) / 4 = packCarry rs := by
  have hr : r.toNat < 4 := r.isLt
  rw [packCarry]
  omega

theorem unpackCarry_cons_of_legal {r : BitVec 2} {x : CarryState} (m : Nat) (rs : List (BitVec 2))
    (h : CarryState.ofRails? r = some x) :
    unpackCarry (m + 1) (packCarry (r :: rs)) = (unpackCarry m (packCarry rs)).map (x :: ·) := by
  rw [unpackCarry, packCarry_cons_head, packCarry_cons_tail, h]
  cases unpackCarry m (packCarry rs) <;> rfl

theorem unpackCarry_cons_of_illegal {r : BitVec 2} (m : Nat) (rs : List (BitVec 2))
    (h : CarryState.ofRails? r = none) : unpackCarry (m + 1) (packCarry (r :: rs)) = .error .illegalRail := by
  rw [unpackCarry, packCarry_cons_head, packCarry_cons_tail, h]

theorem unpackCarry_packCarry (xs : List CarryState) :
    unpackCarry xs.length (packCarry (xs.map CarryState.rails)) = .ok xs := by
  induction xs with
  | nil => rfl
  | cons x xs ih =>
    rw [List.length_cons, List.map_cons, unpackCarry_cons_of_legal _ _ (ofRails?_rails x), ih]
    rfl

theorem unpackCarry_illegal_iff (rs : List (BitVec 2)) :
    unpackCarry rs.length (packCarry rs) = .error .illegalRail ↔ 0b11#2 ∈ rs := by
  induction rs with
  | nil => simp [unpackCarry]
  | cons r rs ih =>
    rw [List.length_cons, List.mem_cons, ← ih]
    cases hr : CarryState.ofRails? r with
    | none =>
      have h11 := (ofRails?_eq_none_iff r).1 hr
      exact iff_of_true (unpackCarry_cons_of_illegal rs.length rs hr) (.inl h11.symm)
    | some x =>
      have h11 : 0b11#2 ≠ r := fun h => by cases ((ofRails?_eq_none_iff r).2 h.symm).symm.trans hr
      rw [unpackCarry_cons_of_legal _ rs hr]
      cases unpackCarry rs.length (packCarry rs) <;> simp [Except.map, h11]

/-- Settles O7: packing puts each code in its place, and unpacking takes the codes off one by one. -/
theorem packedCarryCodesDecode : Obligations.PackedCarryCodesDecode := by
  unfold Obligations.PackedCarryCodesDecode
  exact ⟨packCarry_code, unpackCarry_packCarry, unpackCarry_illegal_iff⟩

/-! ### Issuing a command, and STARTP (30_encoding.md rules R68, R69) -/

/-- An issued command leaves the pending inputs as they were. -/
theorem State.issue_of_unmarked {s : State} {c : Command} (hmark : s.faultMark = none) (hrsv : c.rsv = 0#5) :
    s.issue c = exec (Instr.select c.cmd s.block.phase c.width c.aBus c.bBus) s :=
  step_eq_exec_select (s.present_inputs c) hmark hrsv

theorem State.issue_encode {s : State} {i : Instr} (hmark : s.faultMark = none)
    (hfits : i.fits s.block.phase = true) : s.issue (encode i) = exec i s :=
  (State.issue_of_unmarked hmark rfl).trans (congrArg (exec · s) (select_encode hfits))

theorem startpCommand_eq_ok {W : Nat} {pa pb : List Char} {c : Command} (h : startpCommand W pa pb = .ok c) :
    ∃ a b : BitVec W, c = encode (.start pa.length a.toNat b.toNat) := by
  cases ha : fromPattern W pa.length pa with
  | error e => cases (startpCommand_of_first_error pb ha).symm.trans h
  | ok a =>
    cases hb : fromPattern W pa.length pb with
    | error e => cases (startpCommand_of_second_error ha hb).symm.trans h
    | ok b =>
      simp only [startpCommand, ha, hb, Except.ok.injEq] at h
      exact ⟨a, b, h.symm⟩

/-- Settles O55: an assembled command is a START of the first pattern's length, which is 0 for two empty patterns. -/
theorem startpWidthIsFirstPatternLength : Obligations.StartpWidthIsFirstPatternLength := by
  unfold Obligations.StartpWidthIsFirstPatternLength
  refine ⟨fun W pa pb c h => ?_, fun W pa pb hbin hlen => ?_, fun W => ⟨_, rfl, fun s hmark hquiet => ?_⟩⟩
  · obtain ⟨a, b, rfl⟩ := startpCommand_eq_ok h
    exact ⟨rfl, rfl, rfl⟩
  · exact startpCommand_of_second_error (fromPattern_binary W rfl hbin) (fromPattern_wrong_length W hlen)
  · rw [State.issue_encode hmark rfl]
    exact exec_start_of_bad_width _ _ hquiet (.inl rfl)

end Sys2Proof.Machine

/-! PROOFS. What single instructions write: the statements of 10_state.md section 3, 20_memory.md rules R46 and R54,
40_host_operations.md rule R81, and the initial cycle of 41_carry_cycles.md section 2. -/

namespace Sys2Proof.Machine

/-! ### START and the reads (20_memory.md rules R46, R54) -/

theorem exec_start_of_good_width {s : State} {n : Nat} (a b : Operand) (hquiet : trialRuns s.block.phase = false)
    (hlow : 1 ≤ n) (hhigh : n ≤ s.params.wMax) :
    exec (.start n a b) s = .next (s.withBlock (s.block.load ⟨n, Nat.lt_succ_of_le hhigh⟩
      (busOfNat s.params.wMax a) (busOfNat s.params.wMax b))) := by
  obtain ⟨hrun, -⟩ | ⟨-, hwidth, -⟩ | ⟨-, _, hexec⟩ := execStart_cases n a b s
  · exact absurd (hrun.symm.trans hquiet) (by decide)
  · omega
  · exact hexec

theorem Block.load_eq_load {W : Nat} (old old' : Block W) (n : Fin (W + 1)) (x y : BitVec W) :
    old.load n x y = old'.load n x y := rfl

/-- Settles O19: `Block.load` reads nothing of the block before it, so the power-on block stands for all of them. -/
theorem acceptedStartForgetsEarlierTrial : Obligations.AcceptedStartForgetsEarlierTrial := by
  unfold Obligations.AcceptedStartForgetsEarlierTrial
  intro p n a b hlow hhigh
  refine ⟨(Block.powerOn p.wMax).load ⟨n, Nat.lt_succ_of_le hhigh⟩ (busOfNat p.wMax a) (busOfNat p.wMax b), ?_⟩
  intro old mark is vs hquiet
  rw [Block.load_eq_load _ old]
  exact exec_start_of_good_width (s := ⟨p, old, mark, is, vs⟩) a b hquiet hlow hhigh

/-- The value a read gives is a function of the registers, which a read leaves alone. -/
theorem exec_read_twice {i : Instr} {s t : State} (hi : i = .readResult ∨ i = .readStatus ∨ i = .readState)
    (h : exec i s = .next t) : ∃ v, t = s.give v ∧ exec i t = .next (t.give v) := by
  obtain rfl | rfl | rfl := hi
  · obtain ⟨hdone, hexec⟩ | ⟨-, hexec⟩ := execReadResult_cases s
    all_goals cases hexec.symm.trans h
    exact ⟨_, rfl, exec_readResult_of_done hdone⟩
  · cases h
    exact ⟨_, rfl, rfl⟩
  · cases h
    exact ⟨_, rfl, rfl⟩

theorem State.give_give (s : State) (v w : HostValue) :
    (s.give v).give w = { s with returned := s.returned ++ [v, w] } := by
  simp only [State.give, List.append_assoc, List.singleton_append]

/-- Settles O25: the second read gives the value of the first. -/
theorem repeatedReadsReturnSameValue : Obligations.RepeatedReadsReturnSameValue := by
  unfold Obligations.RepeatedReadsReturnSameValue
  intro i s t hi h
  obtain ⟨v, rfl, hagain⟩ := exec_read_twice hi h
  exact ⟨v, rfl, hagain.trans (congrArg Host.Outcome.next (s.give_give v v))⟩

/-! ### The initial cycle (41_carry_cycles.md rule R97) -/

theorem Block.carriesAt_zero {W : Nat} {b : Block W} (h : ∀ k : Fin W, b.c[k] = .U) : b.CarriesAt 0 :=
  fun k _ => (h k).trans (carryAt_of_lt (resolutionCycle_pos b.a b.b k.val)).symm

/-- The entries after the first cycle, by kind. -/
theorem carryAt_one {W : Nat} (a b : BitVec W) (k : Fin W) :
    carryAt a b 1 k.val = if a[k] = b[k] then carryOf a[k] else if k.val = 0 then .C0 else .U := by
  by_cases hab : a[k] = b[k]
  · have hd := differ_fin_eq_false_iff.2 hab
    rw [if_pos hab, carryAt_of_le (resolutionCycle_of_not_differ hd).le, trueCarry_of_not_differ hd]
    exact congrArg carryOf (BitVec.getLsbD_eq_getElem k.isLt)
  · have hd := differ_fin_eq_true_iff.2 hab
    rw [if_neg hab]
    obtain h0 | ⟨j, hj⟩ := fin_eq_zero_or_succ k
    · rw [if_pos h0, h0, carryAt_of_le (Nat.le_refl 1), trueCarry_zero_of_differ (h0 ▸ hd)]
      rfl
    · rw [if_neg (by omega), ← hj, carryAt_succ_of_differ (hj ▸ hd), carryAt_of_lt (resolutionCycle_pos a b j.val)]

/-- Settles O31: the next block is `Block.carryCycle`, run from cycle 0 (`Block.carriesAt_zero`). -/
theorem initialCycleResultByKind : Obligations.InitialCycleResultByKind := by
  unfold Obligations.InitialCycleResultByKind
  intro s hU
  have hzero : s.block.CarriesAt 0 := Block.carriesAt_zero hU
  refine ⟨s.block.carryCycle, rfl, fun k hk => ⟨?_, (hzero.resolve hk).trans (carryAt_one _ _ k)⟩⟩
  have hlate : ¬ resolutionCycle s.block.a s.block.b (k.val - 1) < 0 + 1 :=
    Nat.not_lt.2 (resolutionCycle_pos _ _ _)
  rw [Block.carryCycle_s, hzero.sumUpdate hk, decide_eq_false hlate]
  simp

/-! ### Who writes A, B, N, CYC and PHASE (10_state.md rules R27, R28; 40_host_operations.md rule R81) -/

/-- Settles O35: neither cycle writes an operand or the width, and a START with a next state met a quiet phase. -/
theorem runningTrialKeepsItsOperands : Obligations.RunningTrialKeepsItsOperands := by
  unfold Obligations.RunningTrialKeepsItsOperands
  intro i s t h
  by_cases hi : ∀ n a b, i ≠ .start n a b
  · obtain ⟨blk, ht, hblk⟩ := exec_next_block_cases hi h
    refine ⟨blk, ht, .inl ?_⟩
    obtain rfl | rfl | rfl := hblk
    all_goals exact ⟨rfl, rfl, rfl⟩
  · push Not at hi
    obtain ⟨n, a, b, rfl⟩ := hi
    obtain ⟨hquiet, blk, rfl, -⟩ := exec_start_next_cases h
    exact ⟨blk, rfl, .inr ⟨⟨n, a, b, rfl⟩, hquiet⟩⟩

/-- Settles O36: START writes 0 whether it rejects or loads; each of the two cycles counts one. -/
theorem cycCountsCarryCycles : Obligations.CycCountsCarryCycles := by
  unfold Obligations.CycCountsCarryCycles
  intro i s t h
  cases i with
  | start n a b =>
    obtain ⟨-, blk, rfl, rfl | ⟨m, x, y, -, rfl⟩⟩ := exec_start_next_cases h
    · exact s.block.rejectTrial_cyc _
    · exact s.block.load_cyc m x y
  | stepInit | stepProp => cases h; exact s.block.carryCycle_cyc
  | stepFinal => cases h; exact s.block.finalCycle_cyc
  | readResult =>
    obtain ⟨v, rfl, -⟩ := exec_read_twice (.inl rfl) h
    rfl
  | nop | stepIdle | stepDone | readStatus | readState => cases h; rfl
  | reserved110 | reserved111 => cases h

/-- One STEP keeps PHASE or moves it on along INIT, PROP, FINAL, DONE. -/
theorem Block.advance_phase_cases {W : Nat} (b : Block W) :
    b.advance.phase = b.phase ∨
    (b.phase = .init ∧ (b.advance.phase = .prop ∨ b.advance.phase = .final)) ∨
    (b.phase = .prop ∧ b.advance.phase = .final) ∨
    (b.phase = .final ∧ b.advance.phase = .done) := by
  obtain ⟨-, heq⟩ | ⟨hp, heq⟩ | ⟨hp, heq⟩ := b.advance_cases
  all_goals rw [heq]
  · exact .inl rfl
  · have hnext : b.carryCycle.phase = .prop ∨ b.carryCycle.phase = .final := by
      rw [b.carryCycle_phase]
      split
      · exact .inr rfl
      · exact .inl rfl
    obtain hp | hp := hp
    · exact .inr (.inl ⟨hp, hnext⟩)
    · obtain hkept | hmoved := hnext
      · exact .inl (hkept.trans hp.symm)
      · exact .inr (.inr (.inl ⟨hp, hmoved⟩))
  · exact .inr (.inr (.inr ⟨hp, rfl⟩))

theorem idle_or_done_of_trialRuns_eq_false {p : Phase} (h : trialRuns p = false) : p = .idle ∨ p = .done := by
  cases p with
  | idle => exact .inl rfl
  | done => exact .inr rfl
  | init | prop | final => cases h

/-- Settles O37: START's answers are `exec_start_next_cases`; any other fitting instruction is at most one STEP. -/
theorem phaseFollowsTrialOrder : Obligations.PhaseFollowsTrialOrder := by
  unfold Obligations.PhaseFollowsTrialOrder
  intro i s t hfits h
  refine ⟨?_, fun hi => ?_⟩
  · rintro ⟨n, a, b, rfl⟩
    obtain ⟨hquiet, blk, rfl, hblk⟩ := exec_start_next_cases h
    refine ⟨idle_or_done_of_trialRuns_eq_false hquiet, ?_⟩
    obtain rfl | ⟨m, x, y, -, rfl⟩ := hblk
    · exact .inr rfl
    · exact .inl rfl
  · obtain ⟨blk, ht, hblk⟩ := exec_next_advance_cases hi hfits h
    have hphase : t.block.phase = blk.phase := congrArg (fun u : State => u.block.phase) ht
    rw [hphase]
    obtain rfl | rfl := hblk
    · exact .inl rfl
    · exact s.block.advance_phase_cases

end Sys2Proof.Machine

/-! PROOFS. The laws of 41_carry_cycles.md section 3, for a block of any capacity. -/

namespace Sys2Proof.Machine

/-! ### CYC and PHASE along a trial (41_carry_cycles.md rule R104) -/

@[simp] theorem Block.advance_a {W : Nat} (b : Block W) : b.advance.a = b.a := by
  obtain ⟨-, heq⟩ | ⟨-, heq⟩ | ⟨-, heq⟩ := b.advance_cases
  all_goals rw [heq]
  · exact b.carryCycle_a
  · exact b.finalCycle_a

@[simp] theorem Block.advance_b {W : Nat} (b : Block W) : b.advance.b = b.b := by
  obtain ⟨-, heq⟩ | ⟨-, heq⟩ | ⟨-, heq⟩ := b.advance_cases
  all_goals rw [heq]
  · exact b.carryCycle_b
  · exact b.finalCycle_b

theorem Block.advance_phase_ne_idle {W : Nat} {b : Block W} (h : b.phase ≠ .idle) : b.advance.phase ≠ .idle := by
  obtain heq | ⟨-, heq | heq⟩ | ⟨-, heq⟩ | ⟨-, heq⟩ := b.advance_phase_cases
  all_goals simp [heq, h]

/-- A loaded trial is in DONE, at the cycles of rule R104, or has charged fewer. -/
theorem Block.TrialInv.done_or_cyc_lt {W : Nat} {b : Block W} (h : b.TrialInv) (hp : b.phase ≠ .idle) :
    b.phase = .done ∧ b.cyc = cycleCount b.a b.b b.n.val ∨ b.phase ≠ .done ∧ b.cyc < cycleCount b.a b.b b.n.val := by
  rw [cycleCount_eq_completionCycle_succ]
  cases hphase : b.phase with
  | idle => exact absurd hphase hp
  | init => exact .inr ⟨by simp, Nat.lt_succ_of_lt (h.cyc_lt_completionCycle (.inl hphase))⟩
  | prop => exact .inr ⟨by simp, Nat.lt_succ_of_lt (h.cyc_lt_completionCycle (.inr hphase))⟩
  | final => exact .inr ⟨by simp, Nat.lt_succ_of_le (h.cyc_final hphase).le⟩
  | done => exact .inl ⟨rfl, (h.cyc_done hphase).trans (cycleCount_eq_completionCycle_succ _ _ _)⟩

theorem Block.TrialInv.done_iff {W : Nat} {b : Block W} (h : b.TrialInv) (hp : b.phase ≠ .idle) :
    b.phase = .done ↔ b.cyc = cycleCount b.a b.b b.n.val := by
  obtain ⟨hdone, hcyc⟩ | ⟨hrun, hlt⟩ := h.done_or_cyc_lt hp
  · exact iff_of_true hdone hcyc
  · exact iff_of_false hrun hlt.ne

theorem Block.TrialInv.cyc_le_cycleCount {W : Nat} {b : Block W} (h : b.TrialInv) (hp : b.phase ≠ .idle) :
    b.cyc ≤ cycleCount b.a b.b b.n.val := by
  obtain ⟨-, hcyc⟩ | ⟨-, hlt⟩ := h.done_or_cyc_lt hp
  · exact hcyc.le
  · exact hlt.le

/-- A STEP charges one cycle until the trial is in DONE. -/
theorem Block.TrialInv.advance_cyc {W : Nat} {b : Block W} (h : b.TrialInv) (hp : b.phase ≠ .idle) :
    b.advance.cyc = min (b.cyc + 1) (cycleCount b.a b.b b.n.val) := by
  have hle := h.cyc_le_cycleCount hp
  have hdone := h.done_iff hp
  obtain ⟨hquiet, heq⟩ | ⟨hrun, heq⟩ | ⟨hrun, heq⟩ := b.advance_cases
  all_goals rw [heq]
  · have hcyc := hdone.1 (hquiet.resolve_left hp)
    omega
  · have hne : b.cyc ≠ cycleCount b.a b.b b.n.val := fun hcyc => by simp [hdone.2 hcyc] at hrun
    rw [b.carryCycle_cyc]
    omega
  · have hne : b.cyc ≠ cycleCount b.a b.b b.n.val := fun hcyc => by simp [hdone.2 hcyc] at hrun
    rw [b.finalCycle_cyc]
    omega

/-- What any number of STEPs keeps of a running trial, and the cycles they charge. -/
theorem Block.TrialInv.advanceN {W : Nat} {b : Block W} (h : b.TrialInv) (hp : b.phase ≠ .idle) (t : Nat) :
    (b.advanceN t).TrialInv ∧ (b.advanceN t).phase ≠ .idle ∧
      (b.advanceN t).a = b.a ∧ (b.advanceN t).b = b.b ∧ (b.advanceN t).n = b.n ∧
      (b.advanceN t).cyc = min (b.cyc + t) (cycleCount b.a b.b b.n.val) := by
  induction t with
  | zero => exact ⟨h, hp, rfl, rfl, rfl, (Nat.min_eq_left (h.cyc_le_cycleCount hp)).symm⟩
  | succ t ih =>
    obtain ⟨hinv, hloaded, ha, hb, hn, hcyc⟩ := ih
    refine ⟨hinv.advance, Block.advance_phase_ne_idle hloaded, (Block.advance_a _).trans ha,
      (Block.advance_b _).trans hb, (Block.advance_n _).trans hn, ?_⟩
    have hstep := hinv.advance_cyc hloaded
    rw [ha, hb, hn, hcyc] at hstep
    rw [Block.advanceN, hstep]
    omega

theorem Block.TrialInv.advanceN_done_iff {W : Nat} {b : Block W} (h : b.TrialInv) (hp : b.phase ≠ .idle) (t : Nat) :
    (b.advanceN t).phase = .done ↔ cycleCount b.a b.b b.n.val ≤ b.cyc + t := by
  obtain ⟨hinv, hloaded, ha, hb, hn, hcyc⟩ := h.advanceN hp t
  rw [hinv.done_iff hloaded, ha, hb, hn, hcyc]
  omega

/-! ### Only the operand bits below `N` matter (30_encoding.md rule R65) -/

theorem loadBus_getLsbD {W : Nat} {n : Fin (W + 1)} (x : BitVec W) {k : Nat} (hk : k < n.val) :
    (loadBus n x).getLsbD k = x.getLsbD k := by
  have hkW : k < W := by omega
  rw [BitVec.getLsbD_eq_getElem hkW, BitVec.getLsbD_eq_getElem hkW]
  exact (loadBus_getElem n x ⟨k, hkW⟩).trans (if_pos hk)

theorem differ_loadBus {W : Nat} {n : Fin (W + 1)} (a b : BitVec W) {k : Nat} (hk : k < n.val) :
    differ (loadBus n a) (loadBus n b) k = differ a b k := by
  rw [differ, differ, loadBus_getLsbD a hk, loadBus_getLsbD b hk]

theorem trueCarry_loadBus {W : Nat} {n : Fin (W + 1)} (a b : BitVec W) {k : Nat} (hk : k < n.val) :
    trueCarry (loadBus n a) (loadBus n b) k = trueCarry a b k := by
  induction k with
  | zero => rw [trueCarry, trueCarry, loadBus_getLsbD a hk, loadBus_getLsbD b hk]
  | succ k ih => rw [trueCarry, trueCarry, differ_loadBus a b hk, loadBus_getLsbD a hk, ih (by omega)]

theorem runEndingAt_loadBus {W : Nat} {n : Fin (W + 1)} (a b : BitVec W) {k : Nat} (hk : k < n.val) :
    runEndingAt (loadBus n a) (loadBus n b) k = runEndingAt a b k := by
  induction k with
  | zero => rfl
  | succ k ih => rw [runEndingAt, runEndingAt, differ_loadBus a b hk, ih (by omega)]

theorem resolutionCycle_loadBus {W : Nat} {n : Fin (W + 1)} (a b : BitVec W) {k : Nat} (hk : k < n.val) :
    resolutionCycle (loadBus n a) (loadBus n b) k = resolutionCycle a b k := by
  rw [resolutionCycle_eq_runEndingAt_succ, resolutionCycle_eq_runEndingAt_succ, runEndingAt_loadBus a b hk]

theorem longestRun_loadBus {W : Nat} {n : Fin (W + 1)} (a b : BitVec W) {m : Nat} (hm : m ≤ n.val) :
    longestRun (loadBus n a) (loadBus n b) m = longestRun a b m := by
  induction m with
  | zero => rfl
  | succ m ih => rw [longestRun, longestRun, ih (by omega), runEndingAt_loadBus a b (by omega)]

theorem cycleCount_loadBus {W : Nat} (n : Fin (W + 1)) (a b : BitVec W) :
    cycleCount (loadBus n a) (loadBus n b) n.val = cycleCount a b n.val := by
  rw [cycleCount, cycleCount, longestRun_loadBus a b (Nat.le_refl _)]

/-! ### The trial, STEP by STEP -/

section
variable {W : Nat} {old : Block W} {n : Fin (W + 1)} {a b : BitVec W}

theorem trialAt_trialInv (hn : 1 ≤ n.val) (t : Nat) : (trialAt old n a b t).TrialInv := by
  obtain ⟨hinv, -⟩ := (old.load_trialInv a b hn).advanceN (by simp) t
  exact hinv

theorem trialAt_phase_ne_idle (hn : 1 ≤ n.val) (t : Nat) : (trialAt old n a b t).phase ≠ .idle := by
  obtain ⟨-, hloaded, -⟩ := (old.load_trialInv a b hn).advanceN (by simp) t
  exact hloaded

theorem trialAt_operands (hn : 1 ≤ n.val) (t : Nat) :
    (trialAt old n a b t).a = loadBus n a ∧ (trialAt old n a b t).b = loadBus n b := by
  obtain ⟨-, -, ha, hb, -⟩ := (old.load_trialInv a b hn).advanceN (by simp) t
  exact ⟨ha, hb⟩

/-- Each STEP charges one cycle, up to the cycles of the trial. -/
theorem trialAt_cyc (hn : 1 ≤ n.val) (t : Nat) : (trialAt old n a b t).cyc = min t (cycleCount a b n.val) := by
  obtain ⟨-, -, -, -, -, hcyc⟩ := (old.load_trialInv a b hn).advanceN (by simp) t
  simpa [cycleCount_loadBus, trialAt] using hcyc

theorem trialAt_done_iff (hn : 1 ≤ n.val) (t : Nat) :
    (trialAt old n a b t).phase = .done ↔ cycleCount a b n.val ≤ t := by
  simpa [cycleCount_loadBus, trialAt] using (old.load_trialInv a b hn).advanceN_done_iff (by simp) t

theorem trialAt_operand_bits (hn : 1 ≤ n.val) (t : Nat) {k : Fin W} (hk : k.val < n.val) :
    (trialAt old n a b t).a[k] = a[k] ∧ (trialAt old n a b t).b[k] = b[k] := by
  obtain ⟨ha, hb⟩ := trialAt_operands (old := old) (a := a) (b := b) hn t
  rw [ha, hb, loadBus_getElem, loadBus_getElem, if_pos hk, if_pos hk]
  exact ⟨rfl, rfl⟩

theorem resolutionCycle_lt_cycleCount {k : Nat} (hk : k < n.val) : resolutionCycle a b k < cycleCount a b n.val := by
  rw [cycleCount_eq_completionCycle_succ]
  exact Nat.lt_succ_of_le ((completionCycle_le_iff (by omega)).1 (Nat.le_refl _) k hk)

/-- The carry entries of a trial after `t` STEPs, `t` beyond its end included. -/
theorem trialAt_carry (hn : 1 ≤ n.val) (t : Nat) {k : Fin W} (hk : k.val < n.val) :
    (trialAt old n a b t).c[k] = carryAt a b t k.val := by
  obtain ⟨ha, hb⟩ := trialAt_operands (old := old) (a := a) (b := b) hn t
  have hcarry := (trialAt_trialInv (old := old) (a := a) (b := b) hn t).carry (trialAt_phase_ne_idle hn t) k
    (by rwa [trialAt_n])
  rw [ha, hb, resolutionCycle_loadBus a b hk, trueCarry_loadBus a b hk, trialAt_cyc hn t] at hcarry
  have hr : resolutionCycle a b k.val < cycleCount a b n.val := resolutionCycle_lt_cycleCount hk
  rw [hcarry, carryAt]
  congr 1
  exact propext (by omega)

/-- The sum bits of a trial after `t` STEPs, the first included. -/
theorem trialAt_sum (hn : 1 ≤ n.val) {t : Nat} (ht : 1 ≤ t) {k : Fin W} (hk : k.val < n.val) :
    (trialAt old n a b t).s[k] = ((a[k] ^^ b[k]) ^^
      (decide (1 ≤ k.val ∧ resolutionCycle a b (k.val - 1) < t) && trueCarry a b (k.val - 1))) := by
  have hk' : k.val - 1 < n.val := by omega
  have hr : resolutionCycle a b (k.val - 1) < cycleCount a b n.val := resolutionCycle_lt_cycleCount hk'
  have hcyc := trialAt_cyc (old := old) (a := a) (b := b) hn t
  obtain ⟨ha, hb⟩ := trialAt_operands (old := old) (a := a) (b := b) hn t
  obtain ⟨hak, hbk⟩ := trialAt_operand_bits (old := old) (a := a) (b := b) hn t hk
  have hsum := (trialAt_trialInv (old := old) (a := a) (b := b) hn t).sum (trialAt_phase_ne_idle hn t) (by omega) k
    (by rwa [trialAt_n])
  rw [hsum, hak, hbk, ha, hb, resolutionCycle_loadBus a b hk', trueCarry_loadBus a b hk', hcyc, Bool.decide_and]
  congr 4
  exact propext (by omega)

end

/-! ### Resolution in a trial (41_carry_cycles.md rules R102, R103) -/

/-- Settles O42: `trialAt_carry`, whose right side is the definition `carryAt`. -/
theorem positionResolvesInItsCycle : Obligations.PositionResolvesInItsCycle := by
  unfold Obligations.PositionResolvesInItsCycle
  exact fun W old n a b t hn k hk => trialAt_carry hn t hk

/-- Before completion some position is undetermined after `m` cycles; the lowest has every one below it determined. -/
theorem exists_lowest_unresolved {W : Nat} {a b : BitVec W} {n m : Nat} (hn : 1 ≤ n)
    (h : m < completionCycle a b n) :
    ∃ k < n, m < resolutionCycle a b k ∧ ∀ j < k, resolutionCycle a b j ≤ m := by
  have hex : ∃ k, k < n ∧ m < resolutionCycle a b k := by
    by_contra hnone
    push Not at hnone
    exact absurd ((completionCycle_le_iff hn).2 hnone) (Nat.not_le.2 h)
  obtain ⟨hkn, hk⟩ := Nat.find_spec hex
  refine ⟨Nat.find hex, hkn, hk, fun j hj => Nat.not_lt.1 fun hlate => ?_⟩
  exact Nat.find_min hex hj ⟨by omega, hlate⟩

/-- Settles O41: the lowest undetermined position resolves in cycle `r(k) > 1`, so it is PROP and above position 0, and
its carry-in is determined. -/
theorem propCycleResolvesLowestUndetermined : Obligations.PropCycleResolvesLowestUndetermined := by
  unfold Obligations.PropCycleResolvesLowestUndetermined
  intro W b hinv hp
  have hloaded : b.phase ≠ .idle := by simp [hp]
  have hc := hinv.carriesAt hloaded
  obtain ⟨hstarted, hbefore⟩ := hinv.cyc_prop hp
  obtain ⟨m, hmn, hlate, hlow⟩ := exists_lowest_unresolved (hinv.one_le_n hloaded) hbefore
  obtain ⟨k, rfl⟩ : ∃ k : Fin W, k.val = m := ⟨⟨m, by omega⟩, rfl⟩
  have hbelow : Completed b.c k.val := fun j hj =>
    hc j (by omega) ▸ carryAt_ne_U_iff.2 (hlow j.val hj)
  have hdiffer : differ b.a b.b k.val = true := by
    by_contra hd
    have hr := resolutionCycle_of_not_differ (Bool.eq_false_iff.2 hd)
    omega
  have habove : k.val ≠ 0 := fun h0 => by
    rw [h0, resolutionCycle] at hlate
    omega
  obtain ⟨j, hj⟩ := (fin_eq_zero_or_succ k).resolve_left habove
  refine ⟨k, j, hmn, hj, (hc k hmn).trans (carryAt_of_lt hlate), hbelow, differ_fin_eq_true_iff.1 hdiffer, ?_⟩
  have hadvance : b.advance.c = b.resolve := by simp only [Block.advance, hp, Block.carryCycle_c]
  rw [hadvance]
  exact resolve_determined hmn (.inr (cin_determined hbelow (Nat.le_refl _)))

/-! ### The longest run of PROP positions (41_carry_cycles.md rule R104) -/

theorem runEndingAt_le {W : Nat} (a b : BitVec W) (k : Nat) : runEndingAt a b k ≤ k := by
  induction k with
  | zero => exact Nat.le_refl 0
  | succ k ih =>
    rw [runEndingAt]
    split
    · exact Nat.succ_le_succ ih
    · exact Nat.zero_le _

/-- The last `runEndingAt` positions up to `k` are PROP. -/
theorem differ_of_runEndingAt {W : Nat} {a b : BitVec W} {j k : Nat} (hj : j ≤ k) (h : k < j + runEndingAt a b k) :
    differ a b j = true := by
  induction k with
  | zero => simp only [runEndingAt] at h; omega
  | succ k ih =>
    rw [runEndingAt] at h
    split at h
    · next hd =>
      obtain rfl | hj' := Nat.eq_or_lt_of_le hj
      · exact hd
      · exact ih (by omega) (by omega)
    · omega

/-- A run of PROP positions from `i` to `k`, position 0 not counting, is no longer than `runEndingAt`. -/
theorem le_runEndingAt {W : Nat} {a b : BitVec W} {i k : Nat} (hi : 1 ≤ i)
    (h : ∀ j, i ≤ j → j ≤ k → differ a b j = true) : k + 1 ≤ i + runEndingAt a b k := by
  induction k with
  | zero => omega
  | succ k ih =>
    by_cases hik : i ≤ k + 1
    · have hrun := ih fun j hij hjk => h j hij (by omega)
      rw [runEndingAt, if_pos (h (k + 1) hik (Nat.le_refl _))]
      omega
    · omega

theorem exists_runEndingAt_eq_longestRun {W : Nat} (a b : BitVec W) {n : Nat} (hn : 1 ≤ n) :
    ∃ k < n, runEndingAt a b k = longestRun a b n := by
  induction n with
  | zero => omega
  | succ n ih =>
    obtain hlast | hlast := Nat.le_total (longestRun a b n) (runEndingAt a b n)
    · exact ⟨n, Nat.lt_succ_self n, (Nat.max_eq_right hlast).symm⟩
    · obtain rfl | hn' := Nat.eq_zero_or_pos n
      · exact ⟨0, Nat.lt_succ_self 0, rfl⟩
      · obtain ⟨k, hk, hrun⟩ := ih hn'
        exact ⟨k, Nat.lt_succ_of_lt hk, hrun.trans (Nat.max_eq_left hlast).symm⟩

theorem exists_isPropRun_longestRun {W : Nat} (a b : BitVec W) {n : Nat} (hn : 1 ≤ n) :
    ∃ i, IsPropRun a b n i (longestRun a b n) := by
  obtain ⟨k, hk, hrun⟩ := exists_runEndingAt_eq_longestRun a b hn
  have hle := runEndingAt_le a b k
  rw [← hrun]
  exact ⟨k + 1 - runEndingAt a b k, by omega, by omega, fun j hij hjk =>
    differ_of_runEndingAt (k := k) (by omega) (by omega)⟩

theorem IsPropRun.le_longestRun {W : Nat} {a b : BitVec W} {n i len : Nat} (h : IsPropRun a b n i len) :
    len ≤ longestRun a b n := by
  obtain ⟨hi, hn, hrun⟩ := h
  obtain rfl | hlen := Nat.eq_zero_or_pos len
  · exact Nat.zero_le _
  · have hend : i + len - 1 + 1 ≤ i + runEndingAt a b (i + len - 1) :=
      le_runEndingAt hi fun j hij hjk => hrun j hij (by omega)
    have hlongest := longestRun_le_iff.1 (Nat.le_refl (longestRun a b n)) (i + len - 1) (by omega)
    omega

theorem longestRun_succ_le {W : Nat} (a b : BitVec W) {n : Nat} (hn : 1 ≤ n) : longestRun a b n + 1 ≤ n := by
  obtain ⟨k, hk, hrun⟩ := exists_runEndingAt_eq_longestRun a b hn
  have hle := runEndingAt_le a b k
  omega

theorem longestRun_eq_zero_iff {W : Nat} {a b : BitVec W} {n : Nat} :
    longestRun a b n = 0 ↔ ∀ k, 1 ≤ k → k < n → differ a b k = false := by
  rw [← Nat.le_zero, longestRun_le_iff]
  constructor
  · intro h k hk hkn
    by_contra hd
    have hrun := le_runEndingAt hk fun j hkj hjk => Nat.le_antisymm hjk hkj ▸ Bool.eq_true_of_not_eq_false hd
    have := h k hkn
    omega
  · intro h k hkn
    cases k with
    | zero => exact Nat.le_refl 0
    | succ k => simp [runEndingAt, h (k + 1) (by omega) hkn]

/-- The longest run fills `[1, n-1]` exactly when every position there is PROP. -/
theorem le_longestRun_succ_iff {W : Nat} {a b : BitVec W} {n : Nat} (hn : 1 ≤ n) :
    n ≤ longestRun a b n + 1 ↔ ∀ k, 1 ≤ k → k < n → differ a b k = true := by
  constructor
  · intro h k hk hkn
    obtain ⟨j, hj, hrun⟩ := exists_runEndingAt_eq_longestRun a b hn
    have hle := runEndingAt_le a b j
    exact differ_of_runEndingAt (k := j) (by omega) (by omega)
  · intro h
    have hfull : IsPropRun a b n 1 (n - 1) := ⟨Nat.le_refl 1, by omega, fun j h1 hj => h j h1 (by omega)⟩
    have hle := hfull.le_longestRun
    omega

theorem cycleCount_le {W : Nat} (a b : BitVec W) {n : Nat} (hn : 1 ≤ n) : cycleCount a b n ≤ n + 1 :=
  Nat.succ_le_succ (longestRun_succ_le a b hn)

/-! ### How many cycles a trial takes (41_carry_cycles.md rules R104 to R108) -/

/-- Settles O43: a longest run has the length `longestRun`, and the trial charges `min t cycles` in `t` STEPs. -/
theorem trialTakesLongestRunPlusTwo : Obligations.TrialTakesLongestRunPlusTwo := by
  unfold Obligations.TrialTakesLongestRunPlusTwo
  rintro W old n a b L hn ⟨i, hrun⟩ hmax
  obtain ⟨j, hlongest⟩ := exists_isPropRun_longestRun a b hn
  have hcount : cycleCount a b n.val = L + 2 :=
    congrArg (· + 2) (Nat.le_antisymm (hmax j _ hlongest) hrun.le_longestRun)
  refine ⟨(trialAt_done_iff hn _).2 hcount.le, ?_, fun t ht => ⟨fun hdone => ?_, ?_⟩⟩
  · rw [trialAt_cyc hn, hcount, Nat.min_self]
  · have hle := (trialAt_done_iff hn t).1 hdone
    omega
  · rw [trialAt_cyc hn, hcount]
    omega

/-- Settles O44: CYC is at most the cycles of the trial, which are at most `n + 1`. -/
theorem cyclesAreBounded : Obligations.CyclesAreBounded := by
  unfold Obligations.CyclesAreBounded
  intro W old n a b t hn
  have hle := cycleCount_le a b hn
  refine ⟨?_, fun hdone => (trialAt_done_cyc hn hdone).1, fun ht => (trialAt_done_iff hn t).2 (by omega)⟩
  rw [trialAt_cyc hn]
  omega

/-- Settles O46: 2 STEPs suffice exactly when the longest run is empty. -/
theorem twoCyclesExactlyWithoutPropAboveZero : Obligations.TwoCyclesExactlyWithoutPropAboveZero := by
  unfold Obligations.TwoCyclesExactlyWithoutPropAboveZero
  intro W old n a b hn
  have hzero : cycleCount a b n.val ≤ 2 ↔ longestRun a b n.val = 0 := by
    rw [cycleCount]
    omega
  rw [trialAt_done_iff hn, hzero, longestRun_eq_zero_iff]
  simp only [differ, bne_eq_false_iff_eq]

/-- Settles O47: `n` STEPs do not suffice exactly when the longest run fills `[1, n-1]`. -/
theorem worstCaseExactlyAllProp : Obligations.WorstCaseExactlyAllProp := by
  unfold Obligations.WorstCaseExactlyAllProp
  intro W old n a b hn
  have hfull : ¬ cycleCount a b n.val ≤ n.val ↔ n.val ≤ longestRun a b n.val + 1 := by
    rw [cycleCount]
    omega
  rw [Ne, trialAt_done_iff hn, hfull, le_longestRun_succ_iff hn]
  simp only [differ, bne_iff_ne]

/-! ### The sum and the carry out (41_carry_cycles.md rules R106, R109, R110, R111, R114) -/

/-- The carry out of position `k` is the carry into position `k + 1` of the addition of two words. -/
theorem trueCarry_eq_carry {W : Nat} (a b : BitVec W) (k : Nat) : trueCarry a b k = BitVec.carry (k + 1) a b false := by
  induction k with
  | zero => simp [trueCarry, BitVec.carry_succ, Bool.atLeastTwo]
  | succ k ih =>
    rw [trueCarry, ih, BitVec.carry_succ (k + 1), differ]
    cases a.getLsbD (k + 1) <;> cases b.getLsbD (k + 1) <;> simp [Bool.atLeastTwo]

/-- In DONE every sum bit has had its final carry-in: it is the bit of the sum of the two words. -/
theorem trialAt_done_sum {W : Nat} {old : Block W} {n : Fin (W + 1)} {a b : BitVec W} {t : Nat} (hn : 1 ≤ n.val)
    (hdone : (trialAt old n a b t).phase = .done) {k : Fin W} (hk : k.val < n.val) :
    (trialAt old n a b t).s[k] = (a + b)[k] := by
  have hcount := (trialAt_done_iff hn t).1 hdone
  have hr : resolutionCycle a b (k.val - 1) < cycleCount a b n.val := resolutionCycle_lt_cycleCount (by omega)
  have hsum : (a + b)[k] = (a[k] ^^ (b[k] ^^ BitVec.carry k.val a b false)) :=
    BitVec.getElem_add k.isLt a b
  rw [trialAt_sum hn (by omega) hk, hsum, Bool.xor_assoc]
  obtain h0 | ⟨j, hj⟩ := fin_eq_zero_or_succ k
  · simp [h0]
  · have hused : 1 ≤ k.val ∧ resolutionCycle a b (k.val - 1) < t := by omega
    rw [decide_eq_true hused, Bool.true_and, trueCarry_eq_carry, Nat.sub_add_cancel hused.1]

theorem valOf_testBit {W : Nat} (n : Nat) (x : BitVec W) (k : Nat) :
    (valOf n x).testBit k = (decide (k < n) && x.getLsbD k) := by
  rw [valOf, Nat.testBit_mod_two_pow, BitVec.testBit_toNat]

/-- Registers that agree at every position below `n` have the same low `n`-bit value. -/
theorem valOf_congr {W n : Nat} {x y : BitVec W} (h : ∀ k : Fin W, k.val < n → x[k] = y[k]) : valOf n x = valOf n y := by
  refine Nat.eq_of_testBit_eq fun k => ?_
  rw [valOf_testBit, valOf_testBit]
  by_cases hkn : k < n
  · by_cases hkW : k < W
    · rw [BitVec.getLsbD_eq_getElem hkW, BitVec.getLsbD_eq_getElem hkW]
      exact congrArg _ (h ⟨k, hkW⟩ hkn)
    · rw [BitVec.getLsbD_of_ge x k (Nat.not_lt.1 hkW), BitVec.getLsbD_of_ge y k (Nat.not_lt.1 hkW)]
  · simp [hkn]

theorem valOf_add {W n : Nat} (hn : n ≤ W) (x y : BitVec W) : valOf n (x + y) = (valOf n x + valOf n y) % 2 ^ n := by
  rw [valOf, valOf, valOf, BitVec.toNat_add, Nat.mod_mod_of_dvd _ (Nat.pow_dvd_pow 2 hn), ← Nat.add_mod]

/-- Settles O48: below `n` the sum of a finished trial is the sum of the two words. -/
theorem doneSumIsModularAddition : Obligations.DoneSumIsModularAddition := by
  unfold Obligations.DoneSumIsModularAddition
  intro W old n a b t hn hdone
  rw [valOf_congr (y := a + b) fun k hk => trialAt_done_sum hn hdone hk, valOf_add (Nat.le_of_lt_succ n.isLt)]

theorem carryOf_eq_C1_iff (x : Bool) : carryOf x = .C1 ↔ x = true := by
  cases x <;> simp [carryOf]

theorem trueCarry_iff_le_add {W : Nat} (a b : BitVec W) (k : Nat) :
    trueCarry a b k = true ↔ 2 ^ (k + 1) ≤ valOf (k + 1) a + valOf (k + 1) b := by
  rw [trueCarry_eq_carry, BitVec.carry, decide_eq_true_eq]
  rfl

/-- Settles O49: the top entry holds the carry out of position `n - 1`, which is the overflow of the `n`-bit sum. -/
theorem topCarryStateIsCarryOut : Obligations.TopCarryStateIsCarryOut := by
  unfold Obligations.TopCarryStateIsCarryOut
  intro W old n a b t k hk hdone
  have hn : 1 ≤ n.val := by omega
  have hkn : k.val < n.val := by omega
  have hcount := (trialAt_done_iff hn t).1 hdone
  have hr : resolutionCycle a b k.val < cycleCount a b n.val := resolutionCycle_lt_cycleCount hkn
  rw [trialAt_carry hn t hkn, carryAt_of_le (by omega), carryOf_eq_C1_iff, trueCarry_iff_le_add, hk]

/-- Settles O45: no position is above 0, so the longest run is empty; bit 0 of a sum has no carry-in. -/
theorem widthOneTakesTwoCycles : Obligations.WidthOneTakesTwoCycles := by
  unfold Obligations.WidthOneTakesTwoCycles
  intro W gd old n a b hone
  have hn : 1 ≤ n.val := hone.ge
  have hW : 0 < W := by omega
  have hcount : cycleCount a b n.val = 2 := by
    rw [cycleCount, longestRun_eq_zero_iff.2 fun k h1 hk => by omega]
  have hdone : (trialAt old n a b 2).phase = .done := (trialAt_done_iff hn 2).2 hcount.le
  have hcyc : (trialAt old n a b 2).cyc = 2 := by rw [trialAt_cyc hn, hcount, Nat.min_self]
  refine ⟨hdone, hcyc, by rw [Block.delay, hcyc], ?_⟩
  have hsum : (trialAt old n a b 2).s.getLsbD 0 = (a + b).getLsbD 0 := by
    rw [BitVec.getLsbD_eq_getElem hW, BitVec.getLsbD_eq_getElem hW]
    exact trialAt_done_sum (k := ⟨0, hW⟩) hn hdone hn
  rw [hsum, BitVec.getLsbD_add hW]
  simp

/-- A STEP of a running trial computes the sum from the entries at its start. -/
theorem Block.advance_s {W : Nat} {b : Block W} (hloaded : b.phase ≠ .idle) (hrun : b.phase ≠ .done) :
    b.advance.s = b.sumUpdate := by
  obtain ⟨hquiet, -⟩ | ⟨-, heq⟩ | ⟨-, heq⟩ := b.advance_cases
  · exact absurd hquiet (not_or.2 ⟨hloaded, hrun⟩)
  · rw [heq, b.carryCycle_s]
  · rw [heq, b.finalCycle_s]

/-- Settles O50: the first claim is the sum update of STEP `t` itself, the second the invariant's field `sum`. -/
theorem sumBitChangesOnceAfterCarryIn : Obligations.SumBitChangesOnceAfterCarryIn := by
  unfold Obligations.SumBitChangesOnceAfterCarryIn
  intro W old n a b t hn ht hcount k hk
  refine ⟨?_, trialAt_sum hn ht hk⟩
  obtain ⟨u, rfl⟩ := Nat.exists_eq_add_of_le' ht
  have hrun : (trialAt old n a b u).phase ≠ .done := fun hdone => by
    have hle := (trialAt_done_iff hn u).1 hdone
    omega
  have hstep : (trialAt old n a b (u + 1)).s = (trialAt old n a b u).sumUpdate :=
    Block.advance_s (trialAt_phase_ne_idle hn u) hrun
  obtain ⟨hak, hbk⟩ := trialAt_operand_bits (old := old) (a := a) (b := b) hn u hk
  rw [hstep, sumUpdate_getElem, if_pos (by rwa [trialAt_n]), hak, hbk, Nat.add_sub_cancel]

/-- Settles O53: below `n` the sum of a finished trial is the word `a + 0`. -/
theorem addingZeroGivesOperand : Obligations.AddingZeroGivesOperand := by
  unfold Obligations.AddingZeroGivesOperand
  intro W old n a t hn hdone k hk
  rw [trialAt_done_sum hn hdone hk]
  simp

/-! ### Swapped operands (41_carry_cycles.md rule R114) -/

/-- The block with its operands swapped. -/
def Block.swap {W : Nat} (b : Block W) : Block W := { b with a := b.b, b := b.a }

theorem Block.swap_kind {W : Nat} (b : Block W) (k : Fin W) : b.swap.kind k = b.kind k := by
  simp only [Block.kind, Block.swap]
  cases b.a[k] <;> cases b.b[k] <;> rfl

theorem Block.swap_resolve {W : Nat} (b : Block W) : b.swap.resolve = b.resolve := by
  refine Vector.ext fun k hk => ?_
  have hkind := b.swap_kind ⟨k, hk⟩
  have hleft := resolve_getElem b.swap ⟨k, hk⟩
  have hright := resolve_getElem b ⟨k, hk⟩
  rw [hkind] at hleft
  exact hleft.trans hright.symm

theorem Block.swap_sumUpdate {W : Nat} (b : Block W) : b.swap.sumUpdate = b.sumUpdate := by
  refine congrArg (bitsOf W) (funext fun k => ?_)
  simp only [Block.swap, Bool.xor_comm b.b[k] b.a[k]]

theorem Block.swap_carryCycle {W : Nat} (b : Block W) : b.swap.carryCycle = b.carryCycle.swap := by
  simp only [Block.carryCycle, b.swap_resolve, b.swap_sumUpdate]
  rfl

theorem Block.swap_finalCycle {W : Nat} (b : Block W) : b.swap.finalCycle = b.finalCycle.swap := by
  simp only [Block.finalCycle, b.swap_sumUpdate]
  rfl

theorem Block.swap_advance {W : Nat} (b : Block W) : b.swap.advance = b.advance.swap := by
  have hphase : b.swap.phase = b.phase := rfl
  unfold Block.advance
  rw [hphase]
  cases b.phase with
  | idle | done => rfl
  | init | prop => exact b.swap_carryCycle
  | final => exact b.swap_finalCycle

theorem trialAt_swap {W : Nat} (old : Block W) (n : Fin (W + 1)) (a b : BitVec W) (t : Nat) :
    trialAt old n b a t = (trialAt old n a b t).swap := by
  induction t with
  | zero => rfl
  | succ t ih => exact (congrArg Block.advance ih).trans (Block.swap_advance _)

/-- Settles O52: a STEP commutes with the swap, which leaves every other register alone. -/
theorem swappedOperandsGiveSameTrial : Obligations.SwappedOperandsGiveSameTrial := by
  unfold Obligations.SwappedOperandsGiveSameTrial
  intro W old n a b t
  rw [trialAt_swap old n a b t]
  exact ⟨rfl, rfl, rfl, rfl⟩

end Sys2Proof.Machine

/-! PROOFS. The statements of the host's side that run whole trials: STEP* (40_host_operations.md rule R82) and RUN
(41_carry_cycles.md rule R113). -/

namespace Sys2Proof.Machine

/-! ### STEP* (30_encoding.md rule R68, 40_host_operations.md rule R82) -/

theorem exec_stepIn (s : State) : exec (.stepIn s.block.phase) s = .next (s.withBlock s.block.advance) := by
  unfold Block.advance
  cases s.block.phase <;> rfl

/-- A STEP issued in an unmarked state advances the block, whatever its phase. -/
theorem State.issue_stepCommand {s : State} (hmark : s.faultMark = none) :
    s.issue stepCommand = .next (s.withBlock s.block.advance) :=
  (State.issue_of_unmarked hmark rfl).trans (exec_stepIn s)

theorem Block.advance_of_quiet {W : Nat} {b : Block W} (h : trialRuns b.phase = false) : b.advance = b := by
  obtain ⟨-, heq⟩ | ⟨hp, -⟩ | ⟨hp, -⟩ := b.advance_cases
  · exact heq
  · obtain hp | hp := hp
    all_goals rw [hp] at h; cases h
  · rw [hp] at h; cases h

theorem Block.advanceN_of_quiet {W : Nat} {b : Block W} (h : trialRuns b.phase = false) (t : Nat) :
    b.advanceN t = b := by
  induction t with
  | zero => rfl
  | succ t ih => rw [Block.advanceN, ih, Block.advance_of_quiet h]

theorem Block.advanceN_advance {W : Nat} (b : Block W) (t : Nat) : b.advance.advanceN t = b.advanceN (t + 1) := by
  induction t with
  | zero => rfl
  | succ t ih => exact congrArg Block.advance ih

/-- In an unmarked state STEP* is its number of STEPs: those left when it stops would change nothing. -/
theorem State.stepUntilQuiet_eq {s : State} (hmark : s.faultMark = none) (fuel : Nat) :
    s.stepUntilQuiet fuel = .next (s.withBlock (s.block.advanceN fuel)) := by
  induction fuel generalizing s with
  | zero => rfl
  | succ fuel ih =>
    have hpoll : s.issue (encode .readStatus) = .next (s.give (.status s.block.status)) :=
      State.issue_encode hmark rfl
    simp only [State.stepUntilQuiet, hpoll]
    cases hrun : trialRuns s.block.phase with
    | true =>
      have hstep := ih (s := s.withBlock s.block.advance) hmark
      simp only [State.issue_stepCommand hmark, if_true]
      exact hstep.trans (congrArg (fun blk => Host.Outcome.next (s.withBlock blk)) (Block.advanceN_advance s.block fuel))
    | false =>
      rw [Block.advanceN_of_quiet hrun]
      rfl

theorem State.perform_stepStar {s : State} (hmark : s.faultMark = none) :
    s.perform .stepStar = .next (s.withBlock (s.block.advanceN (s.block.n.val + 1))) :=
  State.stepUntilQuiet_eq hmark (s.block.n.val + 1)

/-- `N + 1` STEPs end every trial, and leave IDLE as it is. -/
theorem Block.TrialInv.advanceN_quiet {W : Nat} {b : Block W} (h : b.TrialInv) :
    trialRuns (b.advanceN (b.n.val + 1)).phase = false := by
  by_cases hidle : b.phase = .idle
  · have hquiet : trialRuns b.phase = false := by rw [hidle]; rfl
    rw [Block.advanceN_of_quiet hquiet, hquiet]
  · have hcount := cycleCount_le b.a b.b (h.one_le_n hidle)
    rw [(h.advanceN_done_iff hidle (b.n.val + 1)).2 (by omega)]
    rfl

/-- Settles O56: STEP* is `N + 1` STEPs, and a trial in INIT has charged no cycle yet. -/
theorem stepStarEndsTrial : Obligations.StepStarEndsTrial := by
  unfold Obligations.StepStarEndsTrial
  intro s hinv
  refine ⟨_, State.perform_stepStar hinv.unmarked, hinv.trial.advanceN_quiet, rfl, rfl, rfl, fun hinit => ?_⟩
  have hloaded : s.block.phase ≠ .idle := by simp [hinit]
  have hcount := cycleCount_le s.block.a s.block.b (hinv.trial.one_le_n hloaded)
  obtain ⟨-, -, -, -, -, hcyc⟩ := hinv.trial.advanceN hloaded (s.block.n.val + 1)
  refine ⟨(hinv.trial.advanceN_done_iff hloaded _).2 (by omega), ?_⟩
  rw [State.withBlock_block, hcyc]
  omega

/-! ### The value of a RESULT record (20_memory.md rules R41, R42) -/

theorem valOfBits_testBit (xs : List Bool) (k : Nat) : (valOfBits xs).testBit k = xs[k]?.getD false := by
  induction xs generalizing k with
  | nil => simp [valOfBits]
  | cons x xs ih =>
    have hbit : valOfBits (x :: xs) = Nat.bit x (valOfBits xs) := by rw [valOfBits, Nat.bit_val, Nat.add_comm]
    cases k with
    | zero => rw [hbit, Nat.testBit_bit_zero]; rfl
    | succ k => rw [hbit, Nat.testBit_bit_succ, ih]; rfl

theorem Block.valOfBits_sumBits {W : Nat} (b : Block W) : valOfBits b.sumBits = valOf b.n.val b.s := by
  refine Nat.eq_of_testBit_eq fun k => ?_
  rw [valOfBits_testBit, valOf_testBit]
  by_cases hk : k < b.n.val
  · have hkW : k < W := by omega
    rw [b.sumBits_getElem? (k := ⟨k, hkW⟩) hk, decide_eq_true hk, Bool.true_and, BitVec.getLsbD_eq_getElem hkW]
    rfl
  · rw [List.getElem?_eq_none (b.sumBits_length ▸ Nat.not_lt.1 hk), decide_eq_false hk]
    rfl

theorem valOf_busOfNat {W n : Nat} (hn : n ≤ W) (v : Nat) : valOf n (busOfNat W v) = v % 2 ^ n := by
  refine Nat.eq_of_testBit_eq fun k => ?_
  rw [valOf_testBit, Nat.testBit_mod_two_pow]
  by_cases hk : k < n
  · have hkW : k < W := by omega
    rw [BitVec.getLsbD_eq_getElem hkW]
    exact congrArg _ (busOfNat_getElem W v ⟨k, hkW⟩)
  · rw [decide_eq_false hk, Bool.false_and, Bool.false_and]

/-! ### RUN (41_carry_cycles.md rule R113) -/

theorem performAll_cons_of_next {x : HostAction} {xs : List HostAction} {s t : State} (h : s.perform x = .next t) :
    State.performAll (x :: xs) s = State.performAll xs t := by
  simp only [State.performAll, h]

/-- START, STEP* and READ_RESULT in turn: the record is that of the block `n + 1` STEPs after the START. -/
theorem performAll_run {s : State} {n a b : Nat} (hmark : s.faultMark = none)
    (hquiet : trialRuns s.block.phase = false) (hlow : 1 ≤ n) (hhigh : n ≤ s.params.wMax) {blk : Block s.params.wMax}
    (hblk : blk = trialAt s.block ⟨n, Nat.lt_succ_of_le hhigh⟩ (busOfNat s.params.wMax a) (busOfNat s.params.wMax b)
      (n + 1)) (hdone : blk.phase = .done) :
    State.performAll [.issue (startCommand n a b), .stepStar, .issue (encode .readResult)] s =
      .next ((s.withBlock blk).give (.result (blk.resultRecord s.params.gateDelay))) := by
  have hstart : s.perform (.issue (startCommand n a b)) = .next (s.withBlock (s.block.load ⟨n, Nat.lt_succ_of_le hhigh⟩
      (busOfNat s.params.wMax a) (busOfNat s.params.wMax b))) :=
    (State.issue_encode hmark rfl).trans (exec_start_of_good_width a b hquiet hlow hhigh)
  have hstar : (s.withBlock (s.block.load ⟨n, Nat.lt_succ_of_le hhigh⟩ (busOfNat s.params.wMax a)
      (busOfNat s.params.wMax b))).perform .stepStar = .next (s.withBlock blk) :=
    hblk ▸ State.perform_stepStar (s := s.withBlock _) hmark
  have hread : (s.withBlock blk).perform (.issue (encode .readResult)) =
      .next ((s.withBlock blk).give (.result (blk.resultRecord s.params.gateDelay))) :=
    (State.issue_encode (s := s.withBlock blk) hmark rfl).trans (exec_readResult_of_done (s := s.withBlock blk) hdone)
  exact (performAll_cons_of_next hstart).trans ((performAll_cons_of_next hstar).trans (performAll_cons_of_next hread))

/-- Settles O57: `n + 1` STEPs finish the trial, whose sum is the addition of the two buses modulo `2^n`. -/
theorem runReturnsSimulationResult : Obligations.RunReturnsSimulationResult := by
  unfold Obligations.RunReturnsSimulationResult
  intro s n a b hmark hquiet hlow hhigh
  obtain ⟨m, hm⟩ : ∃ m : Fin (s.params.wMax + 1), m = ⟨n, Nat.lt_succ_of_le hhigh⟩ := ⟨_, rfl⟩
  have hmn : m.val = n := congrArg Fin.val hm
  obtain ⟨blk, hblk⟩ : ∃ blk, blk = trialAt s.block m (busOfNat s.params.wMax a) (busOfNat s.params.wMax b) (n + 1) :=
    ⟨_, rfl⟩
  have hm1 : 1 ≤ m.val := by omega
  have hcount := cycleCount_le (busOfNat s.params.wMax a) (busOfNat s.params.wMax b) hlow
  have hdone : blk.phase = .done := hblk ▸ (trialAt_done_iff hm1 _).2 (by rwa [hmn])
  have hblk_n : blk.n.val = n := by rw [hblk, trialAt_n, hmn]
  have hcyc : blk.cyc = cycleCount (busOfNat s.params.wMax a) (busOfNat s.params.wMax b) n := by
    rw [hblk, trialAt_cyc hm1, hmn]
    omega
  have hsum : valOf n blk.s = (a + b) % 2 ^ n := by
    have hmod := doneSumIsModularAddition _ _ _ _ _ _ hm1 (hblk ▸ hdone)
    rw [← hblk, hmn, valOf_busOfNat hhigh, valOf_busOfNat hhigh, ← Nat.add_mod] at hmod
    exact hmod
  refine ⟨_, _, blk.resultRecord s.params.gateDelay, rfl,
    performAll_run hmark hquiet hlow hhigh (hm ▸ hblk) hdone, rfl, rfl, rfl, hdone, ?_, ?_, hcyc, rfl⟩
  · exact blk.sumBits_length.trans hblk_n
  · exact blk.valOfBits_sumBits.trans (hblk_n.symm ▸ hsum)

end Sys2Proof.Machine
